-- ==== Sys2Proof/Word.lean ====
section
/-! DEFINITION. The word types of the block (00_scope.md rules R8 and R10): every value is an unsigned integer of a
stated width. -/

namespace Sys2Proof

/-- `u32`: the unit of registers, of memory and of instruction encoding (R8 `XLEN`, R14 "Word"). -/
abbrev Word := BitVec 32

/-- `u8`: an operand byte (R14). -/
abbrev Byte := BitVec 8

/-- A register index, 0 to 15 (R20): four bits always name a register, so no range check is ever needed (R62). -/
abbrev RegIdx := Fin 16

/-- A memory address: "a word index, an integer from 0 to 2047" (20_memory.md R40). An index of 2048 or more is no
address, and no access to one can be written down (R53). -/
abbrev Addr := Fin 2048

end Sys2Proof
end

