-- ==== Sys2Proof/Config.lean ====
section
/-! DEFINITION. The implementation parameters of 00_scope.md rule R8: those the source fixes, as constants, and the three
it leaves to the implementation, as a record that the functions concerned take as an argument, so that a claim holds for
every choice of them. -/

namespace Sys2Proof.Config

/-- `PC_INDEX` (R8): "Register 15 is reserved as the Program Counter". -/
def pcIndex : RegIdx := 15

/-- `MEM_WORDS` (R8): "2048 unsigned 32-bit words". -/
def memWords : Nat := 2048

/-- `NUM_HANDLERS` (R8): the length of the dispatch table. -/
def numHandlers : Nat := 3

/-- `RESET_PC` (R8): "program counter = 0". -/
def resetPc : Word := 0

/-- `LOAD_BASE` (R8): the index of the first loaded word. -/
def loadBase : Nat := 0

/-- The values `IMAGE_BYTE_ORDER` ranges over. DESIGN CHOICE (log 24): the spec leaves the parameter OPEN and lists no values
(R8, 20_memory.md R42, 92_eei_decisions.md D12); that there are these two is the model's. -/
inductive ByteOrder where
  | littleEndian
  | bigEndian
  deriving DecidableEq, Repr

/-- The parameters of R8 that the source leaves to the implementation. DESIGN CHOICE (log 15): an argument, never a
constant with a value. -/
structure Params where
  /-- `REG_MARKER`: the register-marker character of the reference encoder (D17). -/
  regMarker : Char
  /-- `IMAGE_BYTE_ORDER`: how the loader reads an image file (D12, OPEN); its two values are log 24's. -/
  imageByteOrder : ByteOrder
  /-- `FUEL`: the executor's step cap, if it has one (D15). -/
  fuel : Option Nat
  deriving DecidableEq, Repr

end Sys2Proof.Config
end

