-- ==== Sys2Proof/Syntax.lean ====
section
/-! DEFINITION. The instructions: one constructor per row of spec/opcode_table.json. An instruction is one 32-bit word of
the one format of 30_encoding.md rule R60; the op-code picks the constructor and the other fields are its arguments. -/

namespace Sys2Proof

/-- The fields of R60 that the decoder does not read (R63): they have no effect on any meaning. DESIGN CHOICE (log 4):
they are carried so that an instruction remembers its whole word. -/
structure Unread where
  /-- Bits 26-22, the condition code, "reserved, always 0 in this version". -/
  cond : BitVec 5
  /-- Bits 21-20, "unused/reserved (must be 0)". -/
  rsv : BitVec 2
  deriving DecidableEq, Repr

/-- The three fields a handler is passed (R62, 40_dispatch.md R98). -/
structure Operands where
  /-- Bits 19-16, the destination register index. -/
  rd : RegIdx
  /-- Bits 15-8, the operand-2 byte. -/
  op2 : Byte
  /-- Bits 7-0, the operand-3 byte. -/
  op3 : Byte
  deriving DecidableEq, Repr

/-- The instructions of spec/opcode_table.json, in the table's order. -/
inductive Instr where
  /-- The all-zero word, "interpreted as 'stop execution.'" (R68, 40_dispatch.md R95; log 3). -/
  | haltSentinel
  /-- Op-code 0 in a non-zero word (42_control.md R120). -/
  | nop (u : Unread) (f : Operands)
  /-- Op-code 1 (41_arithmetic.md R110). -/
  | add (u : Unread) (f : Operands)
  /-- Op-code 2 (41_arithmetic.md R111). -/
  | sub (u : Unread) (f : Operands)
  /-- Op-code 3, which has no handler of its own (42_control.md R121). -/
  | rsvd3 (u : Unread) (f : Operands)
  /-- Op-code 4, which has no handler of its own (42_control.md R121). -/
  | rsvd4 (u : Unread) (f : Operands)
  /-- Op-code 5, which has no handler of its own (42_control.md R121). -/
  | rsvd5 (u : Unread) (f : Operands)
  /-- Op-code 6, which has no handler of its own (42_control.md R121). -/
  | rsvd6 (u : Unread) (f : Operands)
  /-- Op-code 7, which has no handler of its own (42_control.md R121). -/
  | rsvd7 (u : Unread) (f : Operands)
  /-- Op-code 8, which has no handler of its own (42_control.md R121). -/
  | rsvd8 (u : Unread) (f : Operands)
  /-- Op-code 9, which has no handler of its own (42_control.md R121). -/
  | rsvd9 (u : Unread) (f : Operands)
  /-- Op-code 10, which has no handler of its own (42_control.md R121). -/
  | rsvd10 (u : Unread) (f : Operands)
  /-- Op-code 11, which has no handler of its own (42_control.md R121). -/
  | rsvd11 (u : Unread) (f : Operands)
  /-- Op-code 12, which has no handler of its own (42_control.md R121). -/
  | rsvd12 (u : Unread) (f : Operands)
  /-- Op-code 13, which has no handler of its own (42_control.md R121). -/
  | rsvd13 (u : Unread) (f : Operands)
  /-- Op-code 14, which has no handler of its own (42_control.md R121). -/
  | rsvd14 (u : Unread) (f : Operands)
  /-- Op-code 15, which has no handler of its own (42_control.md R121). -/
  | rsvd15 (u : Unread) (f : Operands)
  /-- Op-code 16, which has no handler of its own (42_control.md R121). -/
  | rsvd16 (u : Unread) (f : Operands)
  /-- Op-code 17, which has no handler of its own (42_control.md R121). -/
  | rsvd17 (u : Unread) (f : Operands)
  /-- Op-code 18, which has no handler of its own (42_control.md R121). -/
  | rsvd18 (u : Unread) (f : Operands)
  /-- Op-code 19, which has no handler of its own (42_control.md R121). -/
  | rsvd19 (u : Unread) (f : Operands)
  /-- Op-code 20, which has no handler of its own (42_control.md R121). -/
  | rsvd20 (u : Unread) (f : Operands)
  /-- Op-code 21, which has no handler of its own (42_control.md R121). -/
  | rsvd21 (u : Unread) (f : Operands)
  /-- Op-code 22, which has no handler of its own (42_control.md R121). -/
  | rsvd22 (u : Unread) (f : Operands)
  /-- Op-code 23, which has no handler of its own (42_control.md R121). -/
  | rsvd23 (u : Unread) (f : Operands)
  /-- Op-code 24, which has no handler of its own (42_control.md R121). -/
  | rsvd24 (u : Unread) (f : Operands)
  /-- Op-code 25, which has no handler of its own (42_control.md R121). -/
  | rsvd25 (u : Unread) (f : Operands)
  /-- Op-code 26, which has no handler of its own (42_control.md R121). -/
  | rsvd26 (u : Unread) (f : Operands)
  /-- Op-code 27, which has no handler of its own (42_control.md R121). -/
  | rsvd27 (u : Unread) (f : Operands)
  /-- Op-code 28, which has no handler of its own (42_control.md R121). -/
  | rsvd28 (u : Unread) (f : Operands)
  /-- Op-code 29, which has no handler of its own (42_control.md R121). -/
  | rsvd29 (u : Unread) (f : Operands)
  /-- Op-code 30, which has no handler of its own (42_control.md R121). -/
  | rsvd30 (u : Unread) (f : Operands)
  /-- Op-code 31, which has no handler of its own (42_control.md R121). -/
  | rsvd31 (u : Unread) (f : Operands)
  deriving DecidableEq, Repr

end Sys2Proof
end

