-- ==== Sys2Proof/WellFormed.lean ====
section
/-! DEFINITION. Which terms of `Instr` are instructions of the machine: those that some word decodes to. The widths are
in the types; one check is left. -/

namespace Sys2Proof

/-- The all-zero word is the halt sentinel, never a NOP (30_encoding.md R68), so a NOP has a field that is not 0. -/
def Instr.wellFormed (i : Instr) : Bool :=
  match i with
  | .haltSentinel => true
  | .nop u f => !(decide (u = ⟨0, 0⟩) && decide (f = ⟨0, 0, 0⟩))
  | .add _ _ => true
  | .sub _ _ => true
  | .rsvd3 _ _ => true
  | .rsvd4 _ _ => true
  | .rsvd5 _ _ => true
  | .rsvd6 _ _ => true
  | .rsvd7 _ _ => true
  | .rsvd8 _ _ => true
  | .rsvd9 _ _ => true
  | .rsvd10 _ _ => true
  | .rsvd11 _ _ => true
  | .rsvd12 _ _ => true
  | .rsvd13 _ _ => true
  | .rsvd14 _ _ => true
  | .rsvd15 _ _ => true
  | .rsvd16 _ _ => true
  | .rsvd17 _ _ => true
  | .rsvd18 _ _ => true
  | .rsvd19 _ _ => true
  | .rsvd20 _ _ => true
  | .rsvd21 _ _ => true
  | .rsvd22 _ _ => true
  | .rsvd23 _ _ => true
  | .rsvd24 _ _ => true
  | .rsvd25 _ _ => true
  | .rsvd26 _ _ => true
  | .rsvd27 _ _ => true
  | .rsvd28 _ _ => true
  | .rsvd29 _ _ => true
  | .rsvd30 _ _ => true
  | .rsvd31 _ _ => true

/-- `Instr.wellFormed` as a proposition. -/
abbrev Instr.WellFormed (i : Instr) : Prop := i.wellFormed = true

end Sys2Proof
end

