-- ==== Sys2Proof/Decode.lean ====
section
/-! DEFINITION. The bit-field unpacker, the decoder, the encoder, the rows of the op-code table and `canonical`
(30_encoding.md rules R60 to R71). -/

namespace Sys2Proof

/-! ## The unpacker -/

/-- The bit-field unpacker (R61): the `n`-bit field of `w` beginning at bit `s`, right-justified, that is
`floor(w / 2^s) mod 2^n`. DESIGN CHOICE (log 10): the formula is also the value where the caller breaks the contract
`s + n <= 32`, which the block never does. -/
def extract {width : Nat} (w : BitVec width) (s n : Nat) : BitVec n := BitVec.ofNat n (w.toNat / 2 ^ s)

/-- Bits 31-27 (R62). -/
def opcodeOf (w : Word) : BitVec 5 := extract w 27 5

/-- The three operand fields of R62. -/
def operandsOf (w : Word) : Operands where
  rd := (extract w 16 4).toFin
  op2 := extract w 8 8
  op3 := extract w 0 8

/-- The two fields that the decoder of R96 does not read (R63), kept for the encoder's sake only (log 4). -/
def unreadOf (w : Word) : Unread where
  cond := extract w 22 5
  rsv := extract w 20 2

/-! ## The decoder -/

/-- The row of spec/opcode_table.json for each op-code (R67), in op-code order; "used as a direct index". -/
def opcodeRows : Vector (Unread → Operands → Instr) 32 := #v[
  .nop, .add, .sub, .rsvd3, .rsvd4, .rsvd5, .rsvd6, .rsvd7,
  .rsvd8, .rsvd9, .rsvd10, .rsvd11, .rsvd12, .rsvd13, .rsvd14, .rsvd15,
  .rsvd16, .rsvd17, .rsvd18, .rsvd19, .rsvd20, .rsvd21, .rsvd22, .rsvd23,
  .rsvd24, .rsvd25, .rsvd26, .rsvd27, .rsvd28, .rsvd29, .rsvd30, .rsvd31]

/-- The row an op-code indexes (R67). -/
def opcodeRow (op : BitVec 5) : Unread → Operands → Instr := opcodeRows[op.toFin]

/-- The instruction a word stands for. Total: "every 32-bit word decodes" (R69). The all-zero word is the sentinel and is
tested before every other row (R68; log 3); every other word is its op-code's row with its own fields. -/
def decode (w : Word) : Instr :=
  if w = 0 then .haltSentinel else opcodeRow (opcodeOf w) (unreadOf w) (operandsOf w)

/-- The decoder on a word given as a number with bit 0 its least significant bit. An instruction has no more than one
word (R70), so a longer word is none. -/
def decodeTableWord (nbits w : Nat) : Option Instr :=
  if nbits ≤ 32 then some (decode (BitVec.ofNat 32 (w % 2 ^ nbits))) else none

/-! ## The encoder -/

/-- The six fields of R60, most significant first: `ooooo ccccc zz dddd aaaaaaaa bbbbbbbb`. -/
def layOut (op : BitVec 5) (u : Unread) (f : Operands) : Word :=
  op ++ u.cond ++ u.rsv ++ BitVec.ofFin (w := 4) f.rd ++ f.op2 ++ f.op3

/-- The word of an instruction. -/
def encode (i : Instr) : Word :=
  match i with
  | .haltSentinel => 0
  | .nop u f => layOut 0 u f
  | .add u f => layOut 1 u f
  | .sub u f => layOut 2 u f
  | .rsvd3 u f => layOut 3 u f
  | .rsvd4 u f => layOut 4 u f
  | .rsvd5 u f => layOut 5 u f
  | .rsvd6 u f => layOut 6 u f
  | .rsvd7 u f => layOut 7 u f
  | .rsvd8 u f => layOut 8 u f
  | .rsvd9 u f => layOut 9 u f
  | .rsvd10 u f => layOut 10 u f
  | .rsvd11 u f => layOut 11 u f
  | .rsvd12 u f => layOut 12 u f
  | .rsvd13 u f => layOut 13 u f
  | .rsvd14 u f => layOut 14 u f
  | .rsvd15 u f => layOut 15 u f
  | .rsvd16 u f => layOut 16 u f
  | .rsvd17 u f => layOut 17 u f
  | .rsvd18 u f => layOut 18 u f
  | .rsvd19 u f => layOut 19 u f
  | .rsvd20 u f => layOut 20 u f
  | .rsvd21 u f => layOut 21 u f
  | .rsvd22 u f => layOut 22 u f
  | .rsvd23 u f => layOut 23 u f
  | .rsvd24 u f => layOut 24 u f
  | .rsvd25 u f => layOut 25 u f
  | .rsvd26 u f => layOut 26 u f
  | .rsvd27 u f => layOut 27 u f
  | .rsvd28 u f => layOut 28 u f
  | .rsvd29 u f => layOut 29 u f
  | .rsvd30 u f => layOut 30 u f
  | .rsvd31 u f => layOut 31 u f

/-! ## The rows of spec/opcode_table.json -/

/-- A row's mnemonic, match and mask: a word matches the row when its bits under the mask are the match. -/
structure TableRow where
  mnemonic : String
  matchBits : Word
  maskBits : Word
  deriving DecidableEq, Repr

/-- Whether a word matches a row. -/
def TableRow.matchesWord (r : TableRow) (w : Word) : Bool := decide (w &&& r.maskBits = r.matchBits)

/-- The row of an instruction, as spec/opcode_table.json gives it. -/
def Instr.row (i : Instr) : TableRow :=
  match i with
  | .haltSentinel => ⟨"HALT_SENTINEL", 0x00000000, 0xFFFFFFFF⟩
  | .nop _ _ => ⟨"NOP", 0x00000000, 0xF8000000⟩
  | .add _ _ => ⟨"ADD", 0x08000000, 0xF8000000⟩
  | .sub _ _ => ⟨"SUB", 0x10000000, 0xF8000000⟩
  | .rsvd3 _ _ => ⟨"RSVD3", 0x18000000, 0xF8000000⟩
  | .rsvd4 _ _ => ⟨"RSVD4", 0x20000000, 0xF8000000⟩
  | .rsvd5 _ _ => ⟨"RSVD5", 0x28000000, 0xF8000000⟩
  | .rsvd6 _ _ => ⟨"RSVD6", 0x30000000, 0xF8000000⟩
  | .rsvd7 _ _ => ⟨"RSVD7", 0x38000000, 0xF8000000⟩
  | .rsvd8 _ _ => ⟨"RSVD8", 0x40000000, 0xF8000000⟩
  | .rsvd9 _ _ => ⟨"RSVD9", 0x48000000, 0xF8000000⟩
  | .rsvd10 _ _ => ⟨"RSVD10", 0x50000000, 0xF8000000⟩
  | .rsvd11 _ _ => ⟨"RSVD11", 0x58000000, 0xF8000000⟩
  | .rsvd12 _ _ => ⟨"RSVD12", 0x60000000, 0xF8000000⟩
  | .rsvd13 _ _ => ⟨"RSVD13", 0x68000000, 0xF8000000⟩
  | .rsvd14 _ _ => ⟨"RSVD14", 0x70000000, 0xF8000000⟩
  | .rsvd15 _ _ => ⟨"RSVD15", 0x78000000, 0xF8000000⟩
  | .rsvd16 _ _ => ⟨"RSVD16", 0x80000000, 0xF8000000⟩
  | .rsvd17 _ _ => ⟨"RSVD17", 0x88000000, 0xF8000000⟩
  | .rsvd18 _ _ => ⟨"RSVD18", 0x90000000, 0xF8000000⟩
  | .rsvd19 _ _ => ⟨"RSVD19", 0x98000000, 0xF8000000⟩
  | .rsvd20 _ _ => ⟨"RSVD20", 0xA0000000, 0xF8000000⟩
  | .rsvd21 _ _ => ⟨"RSVD21", 0xA8000000, 0xF8000000⟩
  | .rsvd22 _ _ => ⟨"RSVD22", 0xB0000000, 0xF8000000⟩
  | .rsvd23 _ _ => ⟨"RSVD23", 0xB8000000, 0xF8000000⟩
  | .rsvd24 _ _ => ⟨"RSVD24", 0xC0000000, 0xF8000000⟩
  | .rsvd25 _ _ => ⟨"RSVD25", 0xC8000000, 0xF8000000⟩
  | .rsvd26 _ _ => ⟨"RSVD26", 0xD0000000, 0xF8000000⟩
  | .rsvd27 _ _ => ⟨"RSVD27", 0xD8000000, 0xF8000000⟩
  | .rsvd28 _ _ => ⟨"RSVD28", 0xE0000000, 0xF8000000⟩
  | .rsvd29 _ _ => ⟨"RSVD29", 0xE8000000, 0xF8000000⟩
  | .rsvd30 _ _ => ⟨"RSVD30", 0xF0000000, 0xF8000000⟩
  | .rsvd31 _ _ => ⟨"RSVD31", 0xF8000000, 0xF8000000⟩

/-! ## Canonical words -/

/-- An operand byte that is an immediate, or a register reference below 16 (R71). -/
def canonicalByte (b : Byte) : Bool := decide (extract b 7 1 = 0) || decide ((extract b 0 7).toNat < 16)

/-- The predicate `canonical(w)` of R71, "for claims to use as a premise". The block does not test it. -/
def canonical (w : Word) : Bool :=
  decide (extract w 20 7 = 0) && decide ((opcodeOf w).toNat < 3) &&
    canonicalByte (extract w 8 8) && canonicalByte (extract w 0 8)

end Sys2Proof
end

