-- ==== Sys2Proof/Machine/State.lean ====
section
/-! DEFINITION. The state of the block (10_state.md): the register file with the program counter in it, the memory, the
run state and the halt cause, and nothing else (R29, R30, R31). -/

namespace Sys2Proof.Machine

/-- The run state (R25): "States: `Running`, `Halted`". -/
inductive RunState where
  | running
  | halted
  deriving DecidableEq, Repr

/-- The values of the halt-cause register (R27). Codes 5 to 7 are "never written" (log 8). -/
inductive HaltCause where
  /-- Reset; the run has not ended. -/
  | none
  /-- Fetch of the all-zero word (40_dispatch.md R95). -/
  | haltSentinel
  /-- The no-op handler (42_control.md R120). -/
  | haltNop
  /-- Op-code 3 to 31 (42_control.md R121). -/
  | unknownOpcode
  /-- `pc >= 2048` at fetch (40_dispatch.md R93). -/
  | pcOutOfRange
  deriving DecidableEq, Repr

/-- The memory `M[0]` to `M[2047]` (R24) as the list of its words that are not 0, by rising word index. An index it does
not list holds 0, the reset value (R33). DEDUCED (log 1): the cell is a 32-bit word, because memory is "word-addressed (not
byte-addressed)" and has no byte order (20_memory.md R40, R42). `Memory.wf` (Machine/Ops.lean) says the form. -/
abbrev Memory := List (Nat × Word)

/-- The state of the block. -/
structure State where
  /-- `x[0]` to `x[15]` (R20). Register 15 is the program counter, not a register beside it (R21). -/
  regs : Vector Word 16
  /-- `M` (R24). -/
  mem : Memory
  /-- `run` (R25). -/
  run : RunState
  /-- `cause` (R27), which no instruction can address (R29). -/
  cause : HaltCause
  deriving DecidableEq, Repr

/-- The faults of a step: there are none. The block has "no trap mechanism" (60_exceptions.md R130), every error ends the
run with a halt cause, and the step is total (40_dispatch.md R105; log 11). -/
inductive Fault where
  deriving DecidableEq, Repr

/-- The refusals. No step raises one: the loader alone does. -/
inductive Refusal where
  /-- An instruction whose meaning is not written yet. Raised by `exec`'s arm. Safe. No arm raises it. -/
  | notModelled (mnemonic : String)
  /-- An image of more than 2048 words: "refuses it and no run starts" (70_reset_and_hazards.md R151, D13). Raised by
  `loadImage`. Safe. -/
  | imageTooLong
  /-- An image file whose bytes are not a whole number of words. Raised by `loadImageFile`. DESIGN CHOICE (log 13). Safe. -/
  | imageNotWholeWords
  deriving DecidableEq, Repr

/-- The state right after reset (R32, R33, R34): all registers 0, all memory 0, `Running`, `NONE`. -/
def State.reset : State where
  regs := Vector.replicate 16 0
  mem := []
  run := .running
  cause := .none

end Sys2Proof.Machine
end

