-- ==== Sys2Proof/Machine/Ops.lean ====
section
/-! DEFINITION. The shared operations: registers and program counter, memory, fetch, halting, the handler select and what
the step does with a handler's answer (00_scope.md R11, 10_state.md, 20_memory.md, 40_dispatch.md R93 to R101). -/

namespace Sys2Proof.Machine

/-- The outcome of a step or of a load. -/
abbrev Result := Host.Outcome State Fault Refusal

/-! ## Registers -/

/-- `x[i]` (R11). No register is hardwired (R20). -/
def State.reg (s : State) (i : RegIdx) : Word := s.regs[i]

/-- `x[i] <- v` (R11). -/
def State.setReg (s : State) (i : RegIdx) (v : Word) : State := { s with regs := s.regs.set i v }

/-- `pc`, another name for `x[15]` (R21). -/
def State.pc (s : State) : Word := s.reg Config.pcIndex

/-- `pc <- v`, that is `x[15] <- v` (R11, R21). -/
def State.setPc (s : State) (v : Word) : State := s.setReg Config.pcIndex v

/-- The program-counter advance `x[15] <- x[15] +32 1` (R100), on `x[15]` as the handler left it. It wraps (R23). -/
def State.advancePc (s : State) : State := s.setPc (s.pc + 1)

/-! ## Memory -/

/-- What an index that the list does not hold reads as: the reset value 0 (R33). -/
def Memory.unlisted : Word := 0

/-- The word at an index. -/
def Memory.read (m : Memory) (a : Nat) : Word :=
  match m with
  | [] => Memory.unlisted
  | (k, v) :: rest => if a = k then v else Memory.read rest a

/-- The list with a word put in front, unless it is what an unlisted index reads as. -/
def Memory.cons (a : Nat) (v : Word) (m : Memory) : Memory := if v = Memory.unlisted then m else (a, v) :: m

/-- The memory with the word at an index replaced, in canonical form. -/
def Memory.write (m : Memory) (a : Nat) (v : Word) : Memory :=
  match m with
  | [] => Memory.cons a v []
  | (k, x) :: rest =>
    if a < k then Memory.cons a v ((k, x) :: rest)
    else if a = k then Memory.cons a v rest
    else (k, x) :: Memory.write rest a v

/-- The canonical form from an index on: indices rise strictly and name a word (below 2048), and no entry is what an
unlisted index reads as. -/
def Memory.wfFrom (lo : Nat) (m : Memory) : Bool :=
  match m with
  | [] => true
  | (k, v) :: rest =>
    decide (lo ≤ k) && decide (k < Config.memWords) && !decide (v = Memory.unlisted) && Memory.wfFrom (k + 1) rest

/-- The canonical form of memory: equal memories are equal lists. -/
def Memory.wf (m : Memory) : Bool := Memory.wfFrom 0 m

/-- `MemRead(a, 1)` (R11). It has no side effect (R45). -/
def State.memRead (s : State) (a : Addr) : Word := Memory.read s.mem a.val

/-- `MemWrite(a, 1, v)` (R11). "No rule of the block uses it, and only the loader writes memory." -/
def State.memWrite (s : State) (a : Addr) (v : Word) : State := { s with mem := Memory.write s.mem a.val v }

/-! ## Fetch -/

/-- The bounds check of R93: the address a program counter names, or none when it is 2048 or more. -/
def fetchAddr (pc : Word) : Option Addr := if h : pc.toNat < 2048 then some ⟨pc.toNat, h⟩ else none

/-- The bounds check and the fetch `w <- MemRead(x[15], 1)` (R93, R94): none, and no read, when the program counter is out
of range (R53). -/
def State.fetch (s : State) : Option Word := (fetchAddr s.pc).map s.memRead

/-! ## Halting -/

/-- The 3-bit code of a halt cause (R27). -/
def HaltCause.code (c : HaltCause) : BitVec 3 :=
  match c with
  | .none => 0
  | .haltSentinel => 1
  | .haltNop => 2
  | .unknownOpcode => 3
  | .pcOutOfRange => 4

/-- `raise Halt(c)`: `cause <- c; run <- Halted` "with no other write" (R11). This is all that taking an error is: nothing
is saved and the program counter does not move (60_exceptions.md R130, R134). There is no return from it (R135). -/
def State.raiseHalt (s : State) (c : HaltCause) : State := { s with run := .halted, cause := c }

/-- A step of a halted block: "No step is taken", its state does not change (R92). DEDUCED (log 6). -/
def stepHalted (s : State) : Result := .next s

/-- A step whose program counter is out of range (R93). -/
def stepOutOfRange (s : State) : Result := .next (s.raiseHalt .pcOutOfRange)

/-- The frame of a step, around what a fetched word does: only when `Running` (R92), the bounds check before the fetch (R93),
the fetch (R94), then the word. -/
def stepWith (runWord : Word → State → Result) (s : State) : Result :=
  match s.run with
  | .halted => stepHalted s
  | .running =>
    match s.fetch with
    | none => stepOutOfRange s
    | some w => runWord w s

/-- The state in which the next step runs the word: it is stored where the program counter points. Where no step would
fetch, what the fetch needs is set as well: a halted block is `Running` with cause `NONE`, and a program counter out of range
is 0. DESIGN CHOICE (log 12). -/
def State.placeWord (s : State) (w : Word) : State :=
  let awake : State :=
    match s.run with
    | .running => s
    | .halted => { s with run := .running, cause := .none }
  match fetchAddr awake.pc with
  | some a => awake.memWrite a w
  | none => (awake.setPc 0).memWrite 0 w

/-! ## Handlers -/

/-- The handlers the dispatch multiplexer selects among (R97). -/
inductive Handler where
  | nop
  | add
  | sub
  | fallback
  deriving DecidableEq, Repr

/-- The dispatch multiplexer (R97): a direct index into the three handlers (30_encoding.md R67), with the bounds check that
sends op-codes 3 to 31 to the fallback. -/
def select (opcode : BitVec 5) : Handler :=
  match opcode.toNat with
  | 0 => .nop
  | 1 => .add
  | 2 => .sub
  | _ => .fallback

/-- What a handler gives back (R98): the state with at most `x[rd]` written, and whether to continue. -/
structure HandlerResult where
  state : State
  continues : Bool
  deriving DecidableEq, Repr

/-- The cause of a halt by a handler that answered `stop` (R101). -/
def stopCause (h : Handler) : HaltCause :=
  match h with
  | .nop => .haltNop
  | .add => .unknownOpcode
  | .sub => .unknownOpcode
  | .fallback => .unknownOpcode

/-- The rest of the step after the handler: the program-counter advance on `continue` (R100), the halt without an advance
on `stop` (R101). "The step, not the handler, turns `stop` into a halt" (R98). -/
def finishStep (h : Handler) (r : HandlerResult) : State :=
  if r.continues then r.state.advancePc else r.state.raiseHalt (stopCause h)

end Sys2Proof.Machine
end

