-- ==== Sys2Proof/Machine/Flags.lean ====
section
/-! DEFINITION. The arithmetic of 00_scope.md rule R10. The block has no flag to compute: no carry, no overflow, no zero
or sign flag and no condition is kept anywhere (10_state.md R28), so a result is all that an operation has. -/

namespace Sys2Proof.Machine

/-- `a +32 b`, `(a + b) mod 2^32` on the mathematical integers (R10): "unsigned modular arithmetic, no overflow flag"
(41_arithmetic.md R110). -/
def add32 (a b : Word) : Word := BitVec.ofNat 32 (a.toNat + b.toNat)

/-- `a -32 b`, `(a - b) mod 2^32` on the mathematical integers (R10, 41_arithmetic.md R111). -/
def sub32 (a b : Word) : Word := BitVec.ofInt 32 ((a.toNat : Int) - (b.toNat : Int))

/-- `zext_32(v)` (R10). -/
def zext32 {n : Nat} (v : BitVec n) : Word := BitVec.ofNat 32 v.toNat

/-- `sext_N(v)` (R10): "defined for completeness only, because no rule of the block sign-extends anything". -/
def sext32 {n : Nat} (v : BitVec n) : Word := v.signExtend 32

end Sys2Proof.Machine
end

