-- ==== Sys2Proof/Machine/Operands.lean ====
section
/-! DEFINITION. The operand-mode resolver and the value of an operand byte (30_encoding.md rules R64 to R66): every
operand form the block has. -/

namespace Sys2Proof.Machine

/-- What an operand byte resolves to (R64). -/
inductive Source where
  /-- `(0, 0, imm)`: an immediate. -/
  | imm (v : Word)
  /-- `(1, idx, 0)`: a register reference. -/
  | reg (i : RegIdx)
  deriving DecidableEq, Repr

/-- The operand-mode resolver (R64). Bit 7 clear: the byte itself, zero-extended, so 0 to 127 (R66). Bit 7 set: the register
of the low 7 bits, where an index of 16 to 127 is treated as index 0 (R65; log 18). -/
def resolve (b : Byte) : Source :=
  if extract b 7 1 = 1 then
    if (extract b 0 7).toNat < 16 then .reg (extract b 0 4).toFin else .reg 0
  else .imm (zext32 b)

/-- The resolver's first output, `is_reg` (R64). -/
def Source.isReg (r : Source) : Bool :=
  match r with
  | .imm _ => false
  | .reg _ => true

/-- The resolver's second output, `idx`, 0 for an immediate (R64). -/
def Source.idx (r : Source) : RegIdx :=
  match r with
  | .imm _ => 0
  | .reg i => i

/-- The resolver's third output, `imm`, 0 for a register reference (R64). -/
def Source.immediate (r : Source) : Word :=
  match r with
  | .imm v => v
  | .reg _ => 0

/-- `value(b)` (R64): "register contents if high bit set, else literal value". -/
def operandValue (b : Byte) (s : State) : Word :=
  match resolve b with
  | .imm v => v
  | .reg i => s.reg i

end Sys2Proof.Machine
end

