-- ==== Sys2Proof/Machine/Arithmetic.lean ====
section
/-! DEFINITION. The arithmetic family (41_arithmetic.md): the handlers of ADD and SUB and the meanings built on them. -/

namespace Sys2Proof.Machine

/-- The ADD handler (R110): both operands are read before the destination is written (R99); always `continue`. -/
def handleAdd (f : Operands) (s : State) : HandlerResult :=
  ⟨s.setReg f.rd (add32 (operandValue f.op2 s) (operandValue f.op3 s)), true⟩

/-- The SUB handler (R111): operand 2 less operand 3; always `continue`. -/
def handleSub (f : Operands) (s : State) : HandlerResult :=
  ⟨s.setReg f.rd (sub32 (operandValue f.op2 s) (operandValue f.op3 s)), true⟩

/-- ADD (R110): the handler, then the program-counter advance (R100). -/
def execAdd (f : Operands) (s : State) : Result := .next (finishStep .add (handleAdd f s))

/-- SUB (R111): the handler, then the program-counter advance (R100). -/
def execSub (f : Operands) (s : State) : Result := .next (finishStep .sub (handleSub f s))

end Sys2Proof.Machine
end

