-- ==== Sys2Proof/Machine/Control.lean ====
section
/-! DEFINITION. The control family (42_control.md and 40_dispatch.md R95): the halt sentinel, NOP, and the fallback that
every op-code without a handler gets. -/

namespace Sys2Proof.Machine

/-- The halt sentinel (R95): `raise Halt(HALT_SENTINEL)` "and nothing else". -/
def execHaltSentinel (s : State) : Result := .next (s.raiseHalt .haltSentinel)

/-- The no-op handler (R120): "performs no mutation, returns continue = false". -/
def handleNop (_f : Operands) (s : State) : HandlerResult := ⟨s, false⟩

/-- NOP (R120): halts with `HALT_NOP`, program counter not advanced (R101; log 17). -/
def execNop (f : Operands) (s : State) : Result := .next (finishStep .nop (handleNop f s))

/-- The fallback handler (R121): "behaves as the no-op handler". -/
def handleFallback (f : Operands) (s : State) : HandlerResult := handleNop f s

/-- The step of an op-code without a handler (R121): halts with `UNKNOWN_OPCODE`, program counter not advanced (R101). -/
def runFallback (f : Operands) (s : State) : Result := .next (finishStep .fallback (handleFallback f s))

/-- Op-code 3 (R121). -/
def execRsvd3 (f : Operands) (s : State) : Result := runFallback f s

/-- Op-code 4 (R121). -/
def execRsvd4 (f : Operands) (s : State) : Result := runFallback f s

/-- Op-code 5 (R121). -/
def execRsvd5 (f : Operands) (s : State) : Result := runFallback f s

/-- Op-code 6 (R121). -/
def execRsvd6 (f : Operands) (s : State) : Result := runFallback f s

/-- Op-code 7 (R121). -/
def execRsvd7 (f : Operands) (s : State) : Result := runFallback f s

/-- Op-code 8 (R121). -/
def execRsvd8 (f : Operands) (s : State) : Result := runFallback f s

/-- Op-code 9 (R121). -/
def execRsvd9 (f : Operands) (s : State) : Result := runFallback f s

/-- Op-code 10 (R121). -/
def execRsvd10 (f : Operands) (s : State) : Result := runFallback f s

/-- Op-code 11 (R121). -/
def execRsvd11 (f : Operands) (s : State) : Result := runFallback f s

/-- Op-code 12 (R121). -/
def execRsvd12 (f : Operands) (s : State) : Result := runFallback f s

/-- Op-code 13 (R121). -/
def execRsvd13 (f : Operands) (s : State) : Result := runFallback f s

/-- Op-code 14 (R121). -/
def execRsvd14 (f : Operands) (s : State) : Result := runFallback f s

/-- Op-code 15 (R121). -/
def execRsvd15 (f : Operands) (s : State) : Result := runFallback f s

/-- Op-code 16 (R121). -/
def execRsvd16 (f : Operands) (s : State) : Result := runFallback f s

/-- Op-code 17 (R121). -/
def execRsvd17 (f : Operands) (s : State) : Result := runFallback f s

/-- Op-code 18 (R121). -/
def execRsvd18 (f : Operands) (s : State) : Result := runFallback f s

/-- Op-code 19 (R121). -/
def execRsvd19 (f : Operands) (s : State) : Result := runFallback f s

/-- Op-code 20 (R121). -/
def execRsvd20 (f : Operands) (s : State) : Result := runFallback f s

/-- Op-code 21 (R121). -/
def execRsvd21 (f : Operands) (s : State) : Result := runFallback f s

/-- Op-code 22 (R121). -/
def execRsvd22 (f : Operands) (s : State) : Result := runFallback f s

/-- Op-code 23 (R121). -/
def execRsvd23 (f : Operands) (s : State) : Result := runFallback f s

/-- Op-code 24 (R121). -/
def execRsvd24 (f : Operands) (s : State) : Result := runFallback f s

/-- Op-code 25 (R121). -/
def execRsvd25 (f : Operands) (s : State) : Result := runFallback f s

/-- Op-code 26 (R121). -/
def execRsvd26 (f : Operands) (s : State) : Result := runFallback f s

/-- Op-code 27 (R121). -/
def execRsvd27 (f : Operands) (s : State) : Result := runFallback f s

/-- Op-code 28 (R121). -/
def execRsvd28 (f : Operands) (s : State) : Result := runFallback f s

/-- Op-code 29 (R121). -/
def execRsvd29 (f : Operands) (s : State) : Result := runFallback f s

/-- Op-code 30 (R121). -/
def execRsvd30 (f : Operands) (s : State) : Result := runFallback f s

/-- Op-code 31 (R121). -/
def execRsvd31 (f : Operands) (s : State) : Result := runFallback f s

end Sys2Proof.Machine
end

