-- ==== Sys2Proof/Machine/Dispatch.lean ====
section
/-! DEFINITION. `exec`: one arm per instruction, each one call of its meaning. A meaning takes only the operand fields,
as the handlers' contract has it (40_dispatch.md R98); `cond` and `rsv` reach none (30_encoding.md R63). -/

namespace Sys2Proof.Machine

def exec (i : Instr) (s : State) : Host.Outcome State Fault Refusal :=
  match i with
  | .haltSentinel => Sys2Proof.Machine.execHaltSentinel s
  | .nop _ f => Sys2Proof.Machine.execNop f s
  | .add _ f => Sys2Proof.Machine.execAdd f s
  | .sub _ f => Sys2Proof.Machine.execSub f s
  | .rsvd3 _ f => Sys2Proof.Machine.execRsvd3 f s
  | .rsvd4 _ f => Sys2Proof.Machine.execRsvd4 f s
  | .rsvd5 _ f => Sys2Proof.Machine.execRsvd5 f s
  | .rsvd6 _ f => Sys2Proof.Machine.execRsvd6 f s
  | .rsvd7 _ f => Sys2Proof.Machine.execRsvd7 f s
  | .rsvd8 _ f => Sys2Proof.Machine.execRsvd8 f s
  | .rsvd9 _ f => Sys2Proof.Machine.execRsvd9 f s
  | .rsvd10 _ f => Sys2Proof.Machine.execRsvd10 f s
  | .rsvd11 _ f => Sys2Proof.Machine.execRsvd11 f s
  | .rsvd12 _ f => Sys2Proof.Machine.execRsvd12 f s
  | .rsvd13 _ f => Sys2Proof.Machine.execRsvd13 f s
  | .rsvd14 _ f => Sys2Proof.Machine.execRsvd14 f s
  | .rsvd15 _ f => Sys2Proof.Machine.execRsvd15 f s
  | .rsvd16 _ f => Sys2Proof.Machine.execRsvd16 f s
  | .rsvd17 _ f => Sys2Proof.Machine.execRsvd17 f s
  | .rsvd18 _ f => Sys2Proof.Machine.execRsvd18 f s
  | .rsvd19 _ f => Sys2Proof.Machine.execRsvd19 f s
  | .rsvd20 _ f => Sys2Proof.Machine.execRsvd20 f s
  | .rsvd21 _ f => Sys2Proof.Machine.execRsvd21 f s
  | .rsvd22 _ f => Sys2Proof.Machine.execRsvd22 f s
  | .rsvd23 _ f => Sys2Proof.Machine.execRsvd23 f s
  | .rsvd24 _ f => Sys2Proof.Machine.execRsvd24 f s
  | .rsvd25 _ f => Sys2Proof.Machine.execRsvd25 f s
  | .rsvd26 _ f => Sys2Proof.Machine.execRsvd26 f s
  | .rsvd27 _ f => Sys2Proof.Machine.execRsvd27 f s
  | .rsvd28 _ f => Sys2Proof.Machine.execRsvd28 f s
  | .rsvd29 _ f => Sys2Proof.Machine.execRsvd29 f s
  | .rsvd30 _ f => Sys2Proof.Machine.execRsvd30 f s
  | .rsvd31 _ f => Sys2Proof.Machine.execRsvd31 f s

end Sys2Proof.Machine
end

