-- ==== Sys2Proof/Machine/Step.lean ====
section
/-! DEFINITION. The step (40_dispatch.md R91) and `withFetchWord`, which stands for the loader's placing of one word. -/

namespace Sys2Proof.Machine

/-- One step (R91): the fetched word is decoded, the sentinel test first (R95, R96), and its instruction's meaning is run
(R97 to R101). -/
def step (s : State) : Host.Outcome State Fault Refusal := stepWith (fun w => exec (decode w)) s

/-- The state whose next step runs the word with the bits of `w` below `nbits` (log 12). -/
def State.withFetchWord (s : State) (nbits w : Nat) : State := s.placeWord (BitVec.ofNat 32 (w % 2 ^ nbits))

end Sys2Proof.Machine
end

