-- ==== Sys2Proof/Machine/Assembler.lean ====
section
/-! DEFINITION. The reference encoder (30_encoding.md rules R72 to R85): how a line of assembly text becomes a word. It is
"software outside the block"; it is here because it is "the only definition of the operand syntax". Every function is total:
an error "resolves to a defined fallback value (0)" (R84). A line is the list of its characters (log 20). -/

namespace Sys2Proof.Machine

/-- A token of a line. -/
abbrev Token := List Char

/-! ## Lines and tokens -/

/-- Whitespace: "the ASCII space, tab, carriage return and line feed" (R74, D21). -/
def isWhitespace (c : Char) : Bool := c = ' ' || c = '\t' || c = '\r' || c = '\n'

/-- A finished token in front of the rest, unless it is empty. -/
def consToken (t : Token) (rest : List Token) : List Token := if t.isEmpty then rest else t :: rest

/-- The tokens of a line of which `pending` has been read since the last whitespace. -/
def tokensFrom (pending : Token) (line : List Char) : List Token :=
  match line with
  | [] => consToken pending []
  | c :: rest =>
    if isWhitespace c then consToken pending (tokensFrom [] rest) else tokensFrom (pending ++ [c]) rest

/-- The line split at each run of whitespace (R74). -/
def tokens (line : List Char) : List Token := tokensFrom [] line

/-! ## Operand tokens -/

/-- The ASCII digits `0` to `9` (R78). -/
def isDigit (c : Char) : Bool := decide (48 ≤ c.toNat) && decide (c.toNat ≤ 57)

/-- "Parses as an unsigned integer" (R78, D18): a non-empty string of digits, of any size, leading zeros allowed. -/
def parseUnsigned (t : Token) : Option Nat :=
  if t.isEmpty || !t.all isDigit then none
  else some (t.foldl (fun value c => value * 10 + (c.toNat - 48)) 0)

/-- `resolve_immediate` on register syntax (R80) and on every other token that is no integer (R81). -/
def resolveRegister (marker : Char) (t : Token) : Nat × Bool :=
  match t with
  | [] => (0, false)
  | c :: digits =>
    if c = marker then
      match parseUnsigned digits with
      | some index => if index < 16 then (index, true) else (0, false)
      | none => (0, false)
    else (0, false)

/-- `resolve_immediate(token) -> (value, is_register)`: the four rules of R78 to R81, in order. -/
def resolveImmediate (marker : Char) (t : Token) : Nat × Bool :=
  match parseUnsigned t with
  | some value => if value < 256 then (value, false) else (0, false)
  | none => resolveRegister marker t

/-! ## Fields and words -/

/-- `pack(v, s) = (v << s) mod 2^32` (R72). -/
def pack (v s : Nat) : Word := BitVec.ofNat 32 (v * 2 ^ s)

/-- The op-code of a line: an exact match of its first token (R76). -/
def mnemonicOpcode (t : Option Token) : Nat :=
  if t = some ['A', 'D', 'D'] then 1 else if t = some ['S', 'U', 'B'] then 2 else 0

/-- The destination field: `value & 0xF`, the flag discarded (R82); 0 for a missing operand (R77). -/
def destinationField (marker : Char) (t : Option Token) : Nat :=
  match t with
  | none => 0
  | some t => (resolveImmediate marker t).1 &&& 0xF

/-- An operand-2 or operand-3 field: `(value & 0xFF) | (is_register ? 0x80 : 0)` (R83); 0 for a missing operand (R77). -/
def operandField (marker : Char) (t : Option Token) : Nat :=
  match t with
  | none => 0
  | some t =>
    let r := resolveImmediate marker t
    (r.1 &&& 0xFF) ||| (if r.2 then 0x80 else 0)

/-- `validate`, "a pass-through placeholder" (R84). -/
def validate (w : Word) : Word := w

/-- The word of a line's tokens (R73): the mnemonic, then the destination, operand 2 and operand 3; further tokens are
ignored (R75, D20). -/
def assembleTokens (marker : Char) (ts : List Token) : Word :=
  validate (pack (mnemonicOpcode ts[0]?) 27 ||| pack 0 22 ||| pack (destinationField marker ts[1]?) 16 |||
    pack (operandField marker ts[2]?) 8 ||| pack (operandField marker ts[3]?) 0)

/-- `assemble(line)` (R73). -/
def assemble (p : Config.Params) (line : List Char) : Word := assembleTokens p.regMarker (tokens line)

/-- A program image from its lines, one instruction per line (R74, R151). -/
def assembleLines (p : Config.Params) (lines : List (List Char)) : List Word := lines.map (assemble p)

end Sys2Proof.Machine
end

