-- ==== Sys2Proof/Machine/Loader.lean ====
section
/-! DEFINITION. The contract of the program loader (70_reset_and_hazards.md rule R151), which writes memory between reset
and the first step. -/

namespace Sys2Proof.Machine

/-- The words of an image written at rising indices, "one instruction per word, no padding" (R151). -/
def storeFrom (base : Nat) (image : List Word) (m : Memory) : Memory :=
  match image with
  | [] => m
  | w :: rest => storeFrom (base + 1) rest (Memory.write m base w)

/-- The loader (R151): `MemWrite(i, 1, P[i])` for every word of the image; an image of more than 2048 words is refused
(D13). -/
def loadImage (image : List Word) (s : State) : Result :=
  if Config.memWords < image.length then .refused .imageTooLong
  else .next { s with mem := storeFrom Config.loadBase image s.mem }

/-- Reset, then load (R150, R151): the state before the first step of a run. -/
def boot (image : List Word) : Result := loadImage image State.reset

/-! ## Image files -/

/-- The four bytes of a word in an image file, in file order. DESIGN CHOICE (log 24). -/
def bytesOfWord (o : Config.ByteOrder) (w : Word) : List Byte :=
  match o with
  | .littleEndian => [extract w 0 8, extract w 8 8, extract w 16 8, extract w 24 8]
  | .bigEndian => [extract w 24 8, extract w 16 8, extract w 8 8, extract w 0 8]

/-- A word from four bytes of an image file, in file order. DESIGN CHOICE (log 24). -/
def wordOfBytes (o : Config.ByteOrder) (b0 b1 b2 b3 : Byte) : Word :=
  match o with
  | .littleEndian => b3 ++ b2 ++ b1 ++ b0
  | .bigEndian => b0 ++ b1 ++ b2 ++ b3

/-- The words of an image file, four bytes to a word and nothing else in the file (log 24), none where the last word is cut
short (log 13). -/
def imageOfBytes (o : Config.ByteOrder) (bytes : List Byte) : Option (List Word) :=
  match bytes with
  | [] => some []
  | b0 :: b1 :: b2 :: b3 :: rest => (imageOfBytes o rest).map (wordOfBytes o b0 b1 b2 b3 :: ·)
  | _ => none

/-- The loader on an image file, whose byte order is the parameter `IMAGE_BYTE_ORDER` (20_memory.md R42, D12). -/
def loadImageFile (p : Config.Params) (bytes : List Byte) (s : State) : Result :=
  match imageOfBytes p.imageByteOrder bytes with
  | some image => loadImage image s
  | none => .refused .imageNotWholeWords

end Sys2Proof.Machine
end

