-- ==== Sys2Proof/Machine/Ports.lean ====
section
/-! DEFINITION. The ports of the block and their equations (40_dispatch.md rule R90, the spec's decision D1). "The rule R91
step is normative. The equations below are one realisation of it." A port one bit wide is a `Bool` (log 14). -/

namespace Sys2Proof.Machine

/-- The input ports (R90). -/
structure BlockIn where
  /-- `run_i`. -/
  run : Bool
  /-- `pc_i`, which is `x[15]`. -/
  pc : Word
  /-- `instr_i`, which is `M[imem_addr_o]`. -/
  instr : Word
  /-- `ra_data_i`, register read port A. -/
  raData : Word
  /-- `rb_data_i`, register read port B. -/
  rbData : Word
  deriving DecidableEq, Repr

/-! ## The output equations -/

/-- `fetch_ok_o`. -/
def fetchOk (pc : Word) : Bool := decide (pc.toNat < 2048)

/-- `imem_addr_o`, `pc_i[10:0]`. -/
def imemAddr (pc : Word) : Addr := (extract pc 0 11).toFin

/-- `sentinel_o`. -/
def sentinel (instr : Word) : Bool := decide (instr = 0)

/-- `a_is_reg_o` and `ra_idx_o` come from this. -/
def sourceA (instr : Word) : Source := resolve (extract instr 8 8)

/-- `b_is_reg_o` and `rb_idx_o` come from this. -/
def sourceB (instr : Word) : Source := resolve (extract instr 0 8)

/-- `opnd_a_o`. -/
def operandA (i : BlockIn) : Word :=
  if (sourceA i.instr).isReg then i.raData else zext32 (extract i.instr 8 8)

/-- `opnd_b_o`. -/
def operandB (i : BlockIn) : Word :=
  if (sourceB i.instr).isReg then i.rbData else zext32 (extract i.instr 0 8)

/-- `sel_o`: 0 no-op, 1 add, 2 subtract, 3 fallback (R97). -/
def handlerSelect (instr : Word) : BitVec 2 :=
  match select (extract instr 27 5) with
  | .nop => 0
  | .add => 1
  | .sub => 2
  | .fallback => 3

/-- `exec_o`. -/
def execEnable (i : BlockIn) : Bool := i.run && fetchOk i.pc && !sentinel i.instr

/-- `we_o`. -/
def writeEnable (i : BlockIn) : Bool :=
  execEnable i && (decide (handlerSelect i.instr = 1) || decide (handlerSelect i.instr = 2))

/-- `waddr_o`, which is `rd_o`. -/
def writeAddr (instr : Word) : RegIdx := (extract instr 16 4).toFin

/-- `wdata_o`. -/
def writeData (i : BlockIn) : Word :=
  if handlerSelect i.instr = 1 then add32 (operandA i) (operandB i) else sub32 (operandA i) (operandB i)

/-- `halt_o`. -/
def haltOut (i : BlockIn) : Bool := i.run && !writeEnable i

/-- `cause_o`, "meaningful when `halt_o = 1`"; its code is `HaltCause.code`. -/
def causeOut (i : BlockIn) : HaltCause :=
  if !fetchOk i.pc then .pcOutOfRange
  else if sentinel i.instr then .haltSentinel
  else if handlerSelect i.instr = 0 then .haltNop
  else .unknownOpcode

/-- `pc_next_o`. -/
def pcNext (i : BlockIn) : Word :=
  if haltOut i then i.pc
  else if writeAddr i.instr = 15 then add32 (writeData i) 1
  else add32 i.pc 1

/-- The output ports (R90). -/
structure BlockOut where
  fetchOk : Bool
  imemAddr : Addr
  sentinel : Bool
  opcode : BitVec 5
  /-- `cond_o`: "no rule reads it". -/
  cond : BitVec 5
  rd : RegIdx
  op2 : Byte
  op3 : Byte
  aIsReg : Bool
  raIdx : RegIdx
  bIsReg : Bool
  rbIdx : RegIdx
  opndA : Word
  opndB : Word
  sel : BitVec 2
  exec : Bool
  we : Bool
  waddr : RegIdx
  wdata : Word
  halt : Bool
  cause : HaltCause
  pcNext : Word
  deriving DecidableEq, Repr

/-- The combinational block: every output from the inputs (R90). -/
def block (i : BlockIn) : BlockOut where
  fetchOk := fetchOk i.pc
  imemAddr := imemAddr i.pc
  sentinel := sentinel i.instr
  opcode := extract i.instr 27 5
  cond := extract i.instr 22 5
  rd := (extract i.instr 16 4).toFin
  op2 := extract i.instr 8 8
  op3 := extract i.instr 0 8
  aIsReg := (sourceA i.instr).isReg
  raIdx := (sourceA i.instr).idx
  bIsReg := (sourceB i.instr).isReg
  rbIdx := (sourceB i.instr).idx
  opndA := operandA i
  opndB := operandB i
  sel := handlerSelect i.instr
  exec := execEnable i
  we := writeEnable i
  waddr := writeAddr i.instr
  wdata := writeData i
  halt := haltOut i
  cause := causeOut i
  pcNext := pcNext i

/-- The inputs as the state elements drive them (R90). -/
def blockInputs (s : State) : BlockIn :=
  let instr := s.memRead (imemAddr (s.reg 15))
  { run := decide (s.run = .running)
    pc := s.reg 15
    instr := instr
    raData := s.reg (sourceA instr).idx
    rbData := s.reg (sourceB instr).idx }

/-- "State update at the end of the step, only when `run_i = 1`" (R90). -/
def blockUpdate (o : BlockOut) (s : State) : State :=
  let written := if o.we then s.setReg o.waddr o.wdata else s
  let advanced := written.setReg 15 o.pcNext
  if o.halt then { advanced with run := .halted, cause := o.cause } else advanced

/-- One update of the state elements by the block's outputs. -/
def portStep (s : State) : State :=
  let i := blockInputs s
  if i.run then blockUpdate (block i) s else s

end Sys2Proof.Machine
end

