-- ==== Sys2Proof/Machine/Pseudocode.lean ====
section
/-! DEFINITION. The step exactly as the pseudocode of 40_dispatch.md rule R91 writes it, line by line: one handler chosen by
op-code, no instruction in between. `step` is the model's step; this text is there to be proved equal to it. -/

namespace Sys2Proof.Machine

/-- `h(rd, op2, op3)` for each handler (R97, R98). -/
def callHandler (h : Handler) (f : Operands) (s : State) : HandlerResult :=
  match h with
  | .nop => handleNop f s
  | .add => handleAdd f s
  | .sub => handleSub f s
  | .fallback => handleFallback f s

/-- The last three lines of R91, after the handler. -/
def afterHandler (h : Handler) (r : HandlerResult) : State :=
  if r.continues then r.state.setReg 15 (add32 (r.state.reg 15) 1)
  else if h = .nop then r.state.raiseHalt .haltNop
  else r.state.raiseHalt .unknownOpcode

/-- `step()` of R91, on a running block. -/
def pseudoStep (s : State) : State :=
  if h : (s.reg 15).toNat ≥ 2048 then s.raiseHalt .pcOutOfRange
  else
    let w := s.memRead ⟨(s.reg 15).toNat, Nat.lt_of_not_ge h⟩
    if w = 0 then s.raiseHalt .haltSentinel
    else
      let handler := select (extract w 27 5)
      afterHandler handler
        (callHandler handler ⟨(extract w 16 4).toFin, extract w 8 8, extract w 0 8⟩ s)

end Sys2Proof.Machine
end

