-- ==== Sys2Proof/Machine/Run.lean ====
section
/-! DEFINITION. Runs, their length and their output (40_dispatch.md rules R102 to R104). None of this is state of the block:
the counts are "a property of a run, not state a program can read" (60_exceptions.md R138). -/

namespace Sys2Proof.Machine

/-- Where an executor has got to: the state, the steps taken (the halting one among them) and the instructions retired. -/
structure RunRecord where
  state : State
  steps : Nat
  retired : Nat
  deriving DecidableEq, Repr

/-- A record with one step put in front: a step whose handler returned `continue`, which leaves the block `Running`, retires
an instruction; "a halting step retires nothing" (R103). -/
def RunRecord.afterStep (t : State) (r : RunRecord) : RunRecord where
  state := r.state
  steps := r.steps + 1
  retired := if t.run = .running then r.retired + 1 else r.retired

/-- At most `fuel` steps from a state. No step is taken of a halted block (R92). Running out of fuel leaves the block
`Running`: it is not a halt and not the end of the run (R102, D15). -/
def runFor (fuel : Nat) (s : State) : RunRecord :=
  match fuel with
  | 0 => ⟨s, 0, 0⟩
  | k + 1 =>
    match s.run with
    | .halted => ⟨s, 0, 0⟩
    | .running =>
      match step s with
      | .next t => (runFor k t).afterStep t
      | .fault _ => ⟨s, 0, 0⟩
      | .refused _ => ⟨s, 0, 0⟩

/-- What the host may read (R104, R152): `x[0]` to `x[15]` and `cause`. -/
structure Output where
  regs : Vector Word 16
  cause : HaltCause
  deriving DecidableEq, Repr

/-- The output of a run that has ended, "the first state with `run = Halted`" (R104); none before (R102, R152). -/
def State.output (s : State) : Option Output :=
  match s.run with
  | .running => none
  | .halted => some ⟨s.regs, s.cause⟩

/-- The run from `s` ends with record `r` within the step cap of the parameters, if they have one (R102, R104). -/
def EndsWith (p : Config.Params) (s : State) (r : RunRecord) : Prop :=
  ∃ k, (∀ cap, p.fuel = some cap → k ≤ cap) ∧ runFor k s = r ∧ r.state.run = .halted

end Sys2Proof.Machine
end

