-- ==== Sys2Proof/Safety.lean ====
section
/-! DEFINITION. What counts as a good state and as a safe end of a run, in the terms claims use. -/

namespace Sys2Proof.Machine

/-- The invariant of the block: memory keeps its canonical form, so that it lists no word outside `M[0]` to `M[2047]`
(10_state.md R24), and the halt cause is `NONE` exactly while the block runs (R27: "the run has not ended"). -/
structure State.Inv (s : State) : Prop where
  memory_wf : s.mem.wf = true
  running_iff_no_cause : s.run = .running ↔ s.cause = .none

/-- The errors that are "escalated to the caller" (60_exceptions.md R130): an op-code without a handler, and a program
counter out of range. -/
def HaltCause.isError (c : HaltCause) : Bool :=
  match c with
  | .none => false
  | .haltSentinel => false
  | .haltNop => false
  | .unknownOpcode => true
  | .pcOutOfRange => true

/-- A run that ended, and not by an error: `cause` in {1, 2}, the form 92_eei_decisions.md D3 to D5 ask of a claim. -/
def State.EndedNormally (s : State) : Prop := s.run = .halted ∧ (s.cause = .haltSentinel ∨ s.cause = .haltNop)

/-- A state that no error has ended. -/
def State.Safe (s : State) : Prop := s.cause.isError = false

end Sys2Proof.Machine
end

