-- ==== Sys2Proof/Certificates/Slice0/Obligations.lean ====
section
/-! DEFINITION. The statements about the block, for the provers. A docstring that names a decision D<n> of
92_eei_decisions.md or a log entry marks what is that decision's or the model's, not the source's. -/

open Sys2Proof Sys2Proof.Machine

/-! ## Reset, memory and the loader -/

/-- What reset leaves (10_state.md section 7). That `cause` exists and is `NONE` is the spec's decision D3 (log 16). -/
def Obligations.ResetClearsRegistersAndMemoryAndRuns : Prop :=
  (∀ i, State.reset.reg i = 0) ∧ State.reset.pc = 0 ∧ (∀ a, State.reset.memRead a = 0) ∧
    State.reset.run = .running ∧ State.reset.cause = .none

/-- The invariant of Safety.lean holds at reset. Its canonical form of memory is the model's (log 1), its `cause` decision D3. -/
def Obligations.ResetMeetsInvariant : Prop := State.reset.Inv

/-- Read after write (R11 `MemRead`, `MemWrite`), and the model's canonical form (log 1): a write keeps it, and memories in
that form that read alike are equal. -/
def Obligations.MemoryReadsBackWritesAndIsCanonical : Prop :=
  (∀ (s : State) (a b : Addr) (v : Word), s.mem.wf = true →
    (s.memWrite a v).memRead b = (if b = a then v else s.memRead b) ∧ (s.memWrite a v).mem.wf = true ∧
      (s.memWrite a v).regs = s.regs ∧ (s.memWrite a v).run = s.run ∧ (s.memWrite a v).cause = s.cause) ∧
  (∀ s t : State, s.mem.wf = true → t.mem.wf = true → (∀ a, s.memRead a = t.memRead a) → s.mem = t.mem)

/-- After reset and load (10_state.md section 7, 70_reset_and_hazards.md section 1) word `i` is the image's word `i` where
there is one and the reset value 0 elsewhere; nothing else has changed; the first fetch is of `M[0]`. The clause `t.Inv` has
the model's canonical form of memory (log 1), and `cause = NONE` is the spec's decision D3 (log 16). -/
def Obligations.LoaderWritesImageOverZeroMemory : Prop :=
  (∀ a, State.reset.memRead a = 0) ∧
  ∀ image : List Word, image.length ≤ 2048 →
    ∃ t, boot image = .next t ∧ (∀ a : Addr, t.memRead a = (image[a.val]?).getD 0) ∧
      t.regs = State.reset.regs ∧ t.run = .running ∧ t.cause = .none ∧ t.fetch = some (t.memRead 0) ∧ t.Inv

/-- "A loader given a longer image refuses it and no run starts": the spec's decision D13. -/
def Obligations.LoaderRefusesImageLongerThanMemory : Prop :=
  ∀ (image : List Word) (s : State),
    (2048 < image.length → loadImage image s = .refused .imageTooLong) ∧
      (image.length ≤ 2048 → ∃ t, loadImage image s = .next t)

/-- For each value of `IMAGE_BYTE_ORDER` (D12 leaves it open; the two orders and the bare file of four bytes a word are the
model's, log 24), a word's number is that of its four bytes in that order; the loader reads from a file the words the file was
written from, and loads them; a file with a word cut short is refused (log 13). -/
def Obligations.ImageFileLoadsItsWords : Prop :=
  (∀ b0 b1 b2 b3 : Byte,
    (wordOfBytes .littleEndian b0 b1 b2 b3).toNat =
      b0.toNat + 2 ^ 8 * b1.toNat + 2 ^ 16 * b2.toNat + 2 ^ 24 * b3.toNat ∧
    (wordOfBytes .bigEndian b0 b1 b2 b3).toNat =
      2 ^ 24 * b0.toNat + 2 ^ 16 * b1.toNat + 2 ^ 8 * b2.toNat + b3.toNat) ∧
  ∀ (p : Config.Params) (image : List Word) (s : State),
    loadImageFile p (image.flatMap (bytesOfWord p.imageByteOrder)) s = loadImage image s ∧
    ∀ extra : List Byte, 0 < extra.length → extra.length < 4 →
      loadImageFile p (image.flatMap (bytesOfWord p.imageByteOrder) ++ extra) s = .refused .imageNotWholeWords

/-! ## Encoding -/

/-- R61, the unpacker on a field that fits; and R62: each decoded field is its bits of the word, bit by bit, and those
fields are the decoded instruction's, by the op-code rows of 30_encoding.md section 4. That the decoded instruction carries the
bits the block's decoder does not read as well (`unreadOf w`) is the model's choice (log 4). -/
def Obligations.DecodedFieldsAreTheirBits : Prop :=
  ∀ w : Word,
    (∀ s n : Nat, s + n ≤ 32 → (extract w s n).toNat = w.toNat / 2 ^ s % 2 ^ n) ∧
    (∀ k < 5, (opcodeOf w).getLsbD k = w.getLsbD (27 + k)) ∧
    (∀ k < 4, (operandsOf w).rd.val.testBit k = w.getLsbD (16 + k)) ∧
    (∀ k < 8, (operandsOf w).op2.getLsbD k = w.getLsbD (8 + k)) ∧
    (∀ k < 8, (operandsOf w).op3.getLsbD k = w.getLsbD k) ∧
    ((opcodeOf w).toNat = 1 → decode w = .add (unreadOf w) (operandsOf w)) ∧
    ((opcodeOf w).toNat = 2 → decode w = .sub (unreadOf w) (operandsOf w)) ∧
    ((opcodeOf w).toNat = 0 → w ≠ 0 → decode w = .nop (unreadOf w) (operandsOf w))

/-- Decoding the word of a well-formed instruction gives it back: no bit of an encoding is dropped. That an instruction carries
the bits the block's decoder does not read (log 4), and that the sentinel is one (log 3), is the model's. -/
def Obligations.DecodeOfEncodeIsTheInstruction : Prop := ∀ i : Instr, i.WellFormed → decode (encode i) = i

/-- Every word decodes, to a well-formed instruction whose word it is (with log 3 and log 4, as above). -/
def Obligations.EveryWordDecodesAndEncodesBack : Prop :=
  ∀ w : Word, (decode w).WellFormed ∧ encode (decode w) = w

/-- Every word matches, by match and mask, the row of spec/opcode_table.json that it decodes to, and no other row, but that
the all-zero word, tested first (as an instruction by log 3), matches the NOP row too. -/
def Obligations.WordMatchesOnlyItsTableRow : Prop :=
  ∀ w : Word, (decode w).row.matchesWord w = true ∧
    ∀ i : Instr, i.row.matchesWord w = true → i.row = (decode w).row ∨ (w = 0 ∧ ∃ u f, i = .nop u f)

/-- The words of 95_test_vectors.md sections 2.1 and 2.4, decoded by hand. That the sentinel is an instruction (log 3), and that
an instruction carries the bits the block's decoder does not read (log 4), is the model's choice. -/
def Obligations.VectorWordsDecode : Prop :=
  decode 0x00000000 = .haltSentinel ∧ decode 0x00010203 = .nop ⟨0, 0⟩ ⟨1, 0x02, 0x03⟩ ∧
  decode 0x08010203 = .add ⟨0, 0⟩ ⟨1, 0x02, 0x03⟩ ∧ decode 0x10000205 = .sub ⟨0, 0⟩ ⟨0, 0x02, 0x05⟩ ∧
  decode 0x0FF70590 = .add ⟨31, 3⟩ ⟨7, 0x05, 0x90⟩ ∧ decode 0x080F8F01 = .add ⟨0, 0⟩ ⟨15, 0x8F, 0x01⟩ ∧
  decode 0x18000000 = .rsvd3 ⟨0, 0⟩ ⟨0, 0, 0⟩ ∧ decode 0xFFFFFFFF = .rsvd31 ⟨31, 3⟩ ⟨15, 0xFF, 0xFF⟩

/-- `cond` and `rsv` are ignored (R63, decision D8): a word means what it means with bits 26-20 cleared. The one word shape
where clearing them leaves the sentinel is an op-code-0 word, and by R68 it is the no-op handler's (log 5); that its halt has
the cause `HALT_NOP` is decision D3 (log 16), and that it leaves `x[15]` at the word decision D6 (log 17). -/
def Obligations.ReservedBitsHaveNoEffect : Prop :=
  ∀ (w : Word) (s : State),
    (w &&& 0xF80FFFFF ≠ 0 → exec (decode w) s = exec (decode (w &&& 0xF80FFFFF)) s) ∧
    (w ≠ 0 → w &&& 0xF80FFFFF = 0 → exec (decode w) s = .next { s with run := .halted, cause := .haltNop })

/-! ## Operands and handlers -/

/-- R66: a byte with bit 7 clear is the immediate 0 to 127 it spells, zero-extended, and no other byte is an immediate. -/
def Obligations.ImmediateOperandsAreZeroTo127 : Prop :=
  ∀ (b : Byte) (s : State),
    ((resolve b).isReg = false ↔ b.toNat < 128) ∧
    (b.toNat < 128 → (operandValue b s).toNat = b.toNat ∧ (resolve b).idx = 0)

/-- R64 for register references; that an index of 16 to 127 is treated as index 0 is the spec's decision D7 (R65). -/
def Obligations.RegisterOperandsReadTheirRegister : Prop :=
  ∀ (b : Byte) (s : State),
    (∀ i : RegIdx, b.toNat = 128 + i.val → resolve b = .reg i ∧ operandValue b s = s.reg i) ∧
    (144 ≤ b.toNat → resolve b = .reg 0 ∧ operandValue b s = s.reg 0)

/-- R67: the handlers of op-codes 0, 1 and 2, and none for the 29 others, which get the bounds-checked fallback of the
spec's decision D4 (log 16; R97, R121). -/
def Obligations.OpcodeIndexesThreeHandlers : Prop :=
  ∀ op : BitVec 5,
    (op.toNat = 0 → select op = .nop) ∧ (op.toNat = 1 → select op = .add) ∧ (op.toNat = 2 → select op = .sub) ∧
      (Config.numHandlers ≤ op.toNat → select op = .fallback)

/-- R98, the handlers' contract: at most `x[rd]` is written, never memory, `run` or `cause`; only the fields and the
register file are read; ADD and SUB continue, the others stop, and it is the step that turns `stop` into a halt. That there
is a fallback handler for op-codes 3 to 31, and that it stops, is the spec's decision D4 (R121, log 16). -/
def Obligations.HandlersWriteAtMostTheirDestination : Prop :=
  ∀ (h : Handler) (f : Operands) (s : State),
    let r := callHandler h f s
    (∀ i, i ≠ f.rd → r.state.reg i = s.reg i) ∧ (∀ a, r.state.memRead a = s.memRead a) ∧ r.state.mem = s.mem ∧
      r.state.run = s.run ∧ r.state.cause = s.cause ∧ (r.continues = true ↔ h = .add ∨ h = .sub) ∧
      (r.continues = false → (finishStep h r).run = .halted) ∧ (r.continues = true → (finishStep h r).run = s.run) ∧
      ∀ t : State, t.regs = s.regs →
        (callHandler h f t).state.regs = r.state.regs ∧ (callHandler h f t).continues = r.continues

/-! ## Meanings -/

/-- ADD (R110): the sum modulo 2^32 of the operands as they were, then R100's advance of `x[15]` as the handler left it.
Frame: every other register, all memory, `run` and `cause`. -/
def Obligations.AddWritesSumThenAdvances : Prop :=
  ∀ (u : Unread) (f : Operands) (s : State), ∃ t, exec (.add u f) s = .next t ∧
    (let sum := ((operandValue f.op2 s).toNat + (operandValue f.op3 s).toNat) % 2 ^ 32
     (f.rd ≠ 15 → (t.reg f.rd).toNat = sum ∧ t.pc.toNat = (s.pc.toNat + 1) % 2 ^ 32) ∧
     (f.rd = 15 → t.pc.toNat = (sum + 1) % 2 ^ 32)) ∧
    (∀ i, i ≠ f.rd → i ≠ 15 → t.reg i = s.reg i) ∧ (∀ a, t.memRead a = s.memRead a) ∧
    t.run = s.run ∧ t.cause = s.cause

/-- SUB (R111): operand 2 less operand 3 modulo 2^32, of the operands as they were, then R100's advance of `x[15]` as the
handler left it. Frame: every other register, all memory, `run` and `cause`. -/
def Obligations.SubWritesDifferenceThenAdvances : Prop :=
  ∀ (u : Unread) (f : Operands) (s : State), ∃ t, exec (.sub u f) s = .next t ∧
    (let difference := ((operandValue f.op2 s).toNat + 2 ^ 32 - (operandValue f.op3 s).toNat) % 2 ^ 32
     (f.rd ≠ 15 → (t.reg f.rd).toNat = difference ∧ t.pc.toNat = (s.pc.toNat + 1) % 2 ^ 32) ∧
     (f.rd = 15 → t.pc.toNat = (difference + 1) % 2 ^ 32)) ∧
    (∀ i, i ≠ f.rd → i ≠ 15 → t.reg i = s.reg i) ∧ (∀ a, t.memRead a = s.memRead a) ∧
    t.run = s.run ∧ t.cause = s.cause

/-- R111: "Reading `a` and `b` as two's-complement signed values, subtracting, and reducing to 32 bits gives the same bit
pattern as `(a - b) mod 2^32` on the unsigned values, in every case." And R10's modular sums. -/
def Obligations.SignedAndUnsignedDifferencesAgree : Prop :=
  ∀ a b : Word, sub32 a b = BitVec.ofInt 32 (a.toInt - b.toInt) ∧
    (sub32 a b).toNat = (a.toNat + 2 ^ 32 - b.toNat) % 2 ^ 32 ∧ (add32 a b).toNat = (a.toNat + b.toNat) % 2 ^ 32

/-- The halting instructions: the sentinel (R95), NOP (R120) and the 29 op-codes without a handler (R121). Each ends the
run and writes nothing but `run` and `cause`: no register, no memory, and no advance of the program counter. The causes are
the spec's decision D3 and D4, the missing advance its decision D6; that the sentinel is an instruction is the model's (log 3). -/
def Obligations.HaltingInstructionsChangeOnlyRunAndCause : Prop :=
  ∀ (u : Unread) (f : Operands) (s : State),
    exec .haltSentinel s = .next { s with run := .halted, cause := .haltSentinel } ∧
    exec (.nop u f) s = .next { s with run := .halted, cause := .haltNop } ∧
    ∀ i ∈ [Instr.rsvd3 u f, Instr.rsvd4 u f, Instr.rsvd5 u f, Instr.rsvd6 u f, Instr.rsvd7 u f, Instr.rsvd8 u f,
        Instr.rsvd9 u f, Instr.rsvd10 u f, Instr.rsvd11 u f, Instr.rsvd12 u f, Instr.rsvd13 u f, Instr.rsvd14 u f,
        Instr.rsvd15 u f, Instr.rsvd16 u f, Instr.rsvd17 u f, Instr.rsvd18 u f, Instr.rsvd19 u f, Instr.rsvd20 u f,
        Instr.rsvd21 u f, Instr.rsvd22 u f, Instr.rsvd23 u f, Instr.rsvd24 u f, Instr.rsvd25 u f, Instr.rsvd26 u f,
        Instr.rsvd27 u f, Instr.rsvd28 u f, Instr.rsvd29 u f, Instr.rsvd30 u f, Instr.rsvd31 u f],
      exec i s = .next { s with run := .halted, cause := .unknownOpcode }

/-- Control transfer (R122, R153, R154, and the idioms of R85): register 15 as a destination continues at the result plus
one, and as a source reads the index of the instruction itself. -/
def Obligations.WritingRegister15TransfersControl : Prop :=
  ∀ (u : Unread) (s : State) (k : Byte), k.toNat < 128 →
    (∃ t, exec (.add u ⟨15, 0x8F, k⟩) s = .next t ∧ t.pc.toNat = (s.pc.toNat + k.toNat + 1) % 2 ^ 32) ∧
    (∃ t, exec (.sub u ⟨15, 0x8F, k⟩) s = .next t ∧ t.pc.toNat = (s.pc.toNat + 2 ^ 32 - k.toNat + 1) % 2 ^ 32) ∧
    (∃ t, exec (.add u ⟨15, 0, k⟩) s = .next t ∧ t.pc.toNat = k.toNat + 1) ∧
    (∃ t, exec (.sub u ⟨15, 0, 1⟩) s = .next t ∧ t.pc = 0) ∧
    (∀ d : RegIdx, d ≠ 15 → ∃ t, exec (.add u ⟨d, 0x8F, 0⟩) s = .next t ∧ t.reg d = s.pc)

/-- The data idioms of R85: set to an immediate, move, and clear. -/
def Obligations.SetMoveAndClearIdioms : Prop :=
  ∀ (u : Unread) (s : State) (d : RegIdx) (b k : Byte), d ≠ 15 → k.toNat < 128 →
    (∃ t, exec (.add u ⟨d, 0, k⟩) s = .next t ∧ (t.reg d).toNat = k.toNat) ∧
    (∃ t, exec (.add u ⟨d, b, 0⟩) s = .next t ∧ t.reg d = operandValue b s) ∧
    (∃ t, exec (.sub u ⟨d, b, b⟩) s = .next t ∧ t.reg d = 0)

/-- The target of an ADD or a SUB to `x[15]` that is out of range "is not caught when it is written. The next step halts with
`PC_OUT_OF_RANGE`" (R122; the halt and its cause are decision D5). -/
def Obligations.OutOfRangeTargetHaltsAtNextStep : Prop :=
  ∀ (u : Unread) (f : Operands) (s : State), s.run = .running → f.rd = 15 →
    (2048 ≤ (operandValue f.op2 s + operandValue f.op3 s + 1).toNat →
      ∃ t, exec (.add u f) s = .next t ∧ t.run = .running ∧ t.pc = operandValue f.op2 s + operandValue f.op3 s + 1 ∧
        step t = .next { t with run := .halted, cause := .pcOutOfRange }) ∧
    (2048 ≤ (operandValue f.op2 s - operandValue f.op3 s + 1).toNat →
      ∃ t, exec (.sub u f) s = .next t ∧ t.run = .running ∧ t.pc = operandValue f.op2 s - operandValue f.op3 s + 1 ∧
        step t = .next { t with run := .halted, cause := .pcOutOfRange })

/-! ## The step -/

/-- A step of a running block with its program counter in range is `exec` of the instruction at that word, and `step` adds
nothing around it: the advance is in the meanings. That the sentinel's halt too is `exec` of an instruction is the model's
choice (log 3). -/
def Obligations.StepRunsTheDecodedInstruction : Prop :=
  (∀ (s : State) (h : s.pc.toNat < 2048), s.run = .running →
    step s = exec (decode (s.memRead ⟨s.pc.toNat, h⟩)) s) ∧
  (∀ (s : State) (i : Instr) (h : s.pc.toNat < 2048), s.run = .running → i.WellFormed →
    s.memRead ⟨s.pc.toNat, h⟩ = encode i → step s = exec i s)

/-- `withFetchWord` (log 12) puts a word where the next step fetches it: the next step is that word's instruction. On a
running block in range it stores the word and changes nothing else. -/
def Obligations.PlacedWordIsExecutedNext : Prop :=
  ∀ (s : State) (w : Word), s.mem.wf = true →
    step (s.withFetchWord 32 w.toNat) = exec (decode w) (s.withFetchWord 32 w.toNat) ∧
    ∀ h : s.pc.toNat < 2048, s.run = .running → s.withFetchWord 32 w.toNat = s.memWrite ⟨s.pc.toNat, h⟩ w

/-- The step is the pseudocode of R91, the halt causes of decisions D3 to D6 among it. -/
def Obligations.StepIsTheSpecPseudocode : Prop := ∀ s : State, s.run = .running → step s = .next (pseudoStep s)

/-- The port equations of R90 (the spec's decision D1) realise the step, in every state. On a halted block the step that
answers the same state is the model's (log 6); the causes of the halts are decisions D3 to D5, and that `pc_next_o` stays after
a handler's halt is decision D6 (log 17). -/
def Obligations.PortEquationsRealiseTheStep : Prop := ∀ s : State, step s = .next (portStep s)

/-- With the program counter out of range the step reads nothing (20_memory.md section 4) and halts where it is
(40_dispatch.md section 2). The halt and its cause are the spec's decision D5 (log 16). -/
def Obligations.ProgramCounterOutOfRangeHalts : Prop :=
  ∀ s : State, s.run = .running → 2048 ≤ s.pc.toNat →
    s.fetch = none ∧ step s = .next { s with run := .halted, cause := .pcOutOfRange }

/-- The all-zero word halts at once, and the order of the checks (60_exceptions.md section 1): the cause a step sets is that
of the first check that holds, and a step of which none holds goes on. The causes are decisions D3 to D5 (log 16). -/
def Obligations.HaltChecksAreMadeInOrder : Prop :=
  ∀ (s t : State), s.run = .running → step s = .next t →
    (2048 ≤ s.pc.toNat → t.run = .halted ∧ t.cause = .pcOutOfRange) ∧
    ∀ h : s.pc.toNat < 2048,
      let w := s.memRead ⟨s.pc.toNat, h⟩
      (w = 0 → t.run = .halted ∧ t.cause = .haltSentinel) ∧
      (w ≠ 0 → (opcodeOf w).toNat = 0 → t.run = .halted ∧ t.cause = .haltNop) ∧
      (w ≠ 0 → 3 ≤ (opcodeOf w).toNat → t.run = .halted ∧ t.cause = .unknownOpcode) ∧
      ((opcodeOf w).toNat = 1 ∨ (opcodeOf w).toNat = 2 → t.run = .running ∧ t.cause = s.cause)

/-- A step that halts changes nothing but `run` and `cause` (60_exceptions.md section 1). That the program counter does not
advance after a handler's halt is the spec's decision D6 (log 17), and that a cause is set its decision D3 (log 16). -/
def Obligations.HaltingIsPrecise : Prop :=
  ∀ s t : State, s.run = .running → step s = .next t → t.run = .halted →
    t.regs = s.regs ∧ t.pc = s.pc ∧ t.mem = s.mem ∧ t.cause ≠ .none

/-- R92 and R26: a halted block does not change, for a step (log 6) or for any number of steps, and no step is counted. -/
def Obligations.HaltedBlockNeverChanges : Prop :=
  ∀ s : State, s.run = .halted → step s = .next s ∧ ∀ k, runFor k s = ⟨s, 0, 0⟩

/-- What a step writes (40_dispatch.md section 3): at most `x[rd]` and `x[15]`; `run` and `cause` only in a halting step; never
memory. That a halting step writes no register, `x[15]` among them, is after a NOP or the fallback the spec's decision D6
(log 17); that a halted block's step changes nothing is the model's (log 6). -/
def Obligations.StepWritesAtMostTwoRegisters : Prop :=
  ∀ s t : State, step s = .next t →
    (∀ w, s.fetch = some w → ∀ i, i ≠ (operandsOf w).rd → i ≠ 15 → t.reg i = s.reg i) ∧
    (s.fetch = none → t.regs = s.regs) ∧ (∀ a, t.memRead a = s.memRead a) ∧
    ((t.run = s.run ∧ t.cause = s.cause) ∨ (s.run = .running ∧ t.run = .halted ∧ t.regs = s.regs))

/-- From every running state a step answers a next state, and it depends on the registers, `run`, `cause` and the fetched
word alone, on no other word of memory (40_dispatch.md section 3, which speaks of `run = Running` only). That a step from a
halted state answers a next state as well is the model's choice (log 6, DEDUCED), and so is that an instruction does so in
every state whatever `run` is (log 7). -/
def Obligations.StepIsTotalAndReadsOnlyTheFetchedWord : Prop :=
  (∀ s : State, ∃ t, step s = .next t) ∧ (∀ (i : Instr) (s : State), ∃ t, exec i s = .next t) ∧
  (∀ s t s' t' : State, s.regs = t.regs → s.run = t.run → s.cause = t.cause → s.fetch = t.fetch →
    step s = .next s' → step t = .next t' → s'.regs = t'.regs ∧ s'.run = t'.run ∧ s'.cause = t'.cause)

/-- Every step keeps the invariant of Safety.lean: memory stays canonical, and the cause is `NONE` exactly while the block
runs. The canonical form is the model's (log 1), `cause` decision D3, and the halted case log 6. -/
def Obligations.EveryStepKeepsTheInvariant : Prop := ∀ s t : State, s.Inv → step s = .next t → t.Inv

/-! ## Runs -/

/-- R41, R45 and R51: no word of memory changes during a run, so two fetches of one index return the same word. -/
def Obligations.MemoryIsConstantDuringARun : Prop :=
  ∀ (k : Nat) (s : State), (runFor k s).state.mem = s.mem ∧ ∀ a, (runFor k s).state.memRead a = s.memRead a

/-- R103 (the spec's decision D9): a run of `k` retired instructions followed by a halt has `k + 1` steps, and one that is
still running has retired an instruction in every step. -/
def Obligations.EndedRunHasOneStepMoreThanRetired : Prop :=
  ∀ (k : Nat) (s : State), s.run = .running →
    ((runFor k s).state.run = .halted → (runFor k s).steps = (runFor k s).retired + 1 ∧ (runFor k s).steps ≤ k) ∧
    ((runFor k s).state.run = .running → (runFor k s).steps = k ∧ (runFor k s).retired = k)

/-- R102 and D15: a run cut off by a step cap goes on from where it was cut, and has no output. -/
def Obligations.StepCapCutsButDoesNotEndARun : Prop :=
  ∀ (j k : Nat) (s : State),
    (runFor (j + k) s).state = (runFor k (runFor j s).state).state ∧
    (runFor (j + k) s).steps = (runFor j s).steps + (runFor k (runFor j s).state).steps ∧
    (runFor (j + k) s).retired = (runFor j s).retired + (runFor k (runFor j s).state).retired ∧
    ((runFor j s).state.run = .running → (runFor j s).state.output = none)

/-- R104 and R26: a run from a state with the invariant ends at most one way, whatever the step caps; its output is the 16
registers and a cause other than `NONE` (D16); memory is as it was; and the end is the first halted state. -/
def Obligations.EndOfARunIsUniqueAndOutputsRegistersAndCause : Prop :=
  ∀ (p q : Config.Params) (s : State) (r r' : RunRecord), s.Inv → EndsWith p s r → EndsWith q s r' →
    r' = r ∧ r.state.output = some ⟨r.state.regs, r.state.cause⟩ ∧ r.state.cause ≠ .none ∧ r.state.mem = s.mem ∧
      ∀ j < r.steps, (runFor j s).state.run = .running

/-- A run that ends in a state no error ended (Safety.lean) ended on the sentinel or on a NOP: `cause` in {1, 2}, as D3 to
D5 ask of a claim. -/
def Obligations.SafeEndedRunEndedNormally : Prop :=
  ∀ (p : Config.Params) (s : State) (r : RunRecord), s.Inv → EndsWith p s r → r.state.Safe → r.state.EndedNormally

/-- R157: `SUB 15 r15 1` runs for ever. Every step leaves the state as it was, no step cap ends the run, and there is never
an output. -/
def Obligations.SelfLoopRunsForever : Prop :=
  ∀ (s : State) (u : Unread) (h : s.pc.toNat < 2048), s.run = .running →
    s.memRead ⟨s.pc.toNat, h⟩ = encode (.sub u ⟨15, 0x8F, 0x01⟩) →
    step s = .next s ∧ (∀ k, runFor k s = ⟨s, k, k⟩ ∧ (runFor k s).state.output = none) ∧
      ∀ p r, ¬ EndsWith p s r

/-- R156: a program that runs past its last word halts: on the sentinel at index `N`, or, when the image fills memory, on
the program counter 2048. The causes are decisions D3 and D5. -/
def Obligations.RunningPastTheImageHalts : Prop :=
  ∀ (image : List Word) (b : State) (k : Nat), boot image = .next b → (runFor k b).state.run = .running →
    (runFor k b).state.pc.toNat = image.length →
    step (runFor k b).state = .next { (runFor k b).state with
      run := .halted
      cause := if image.length < 2048 then .haltSentinel else .pcOutOfRange }

/-! ## The reference encoder -/

/-- R73, with R76's op-codes, R77, and R82 and R83's widths: the op-code of an assembled word is 1 for `ADD`, 2 for `SUB` and 0
for any other mnemonic or none; its other fields are those the line gave; the condition and reserved bits are 0; and a missing
operand leaves its field 0. -/
def Obligations.AssembledFieldsAreTheLinesFields : Prop :=
  ∀ (marker : Char) (ts : List Token),
    let w := assembleTokens marker ts
    (ts[0]? = some ['A', 'D', 'D'] → (extract w 27 5).toNat = 1) ∧
      (ts[0]? = some ['S', 'U', 'B'] → (extract w 27 5).toNat = 2) ∧
      (ts[0]? ≠ some ['A', 'D', 'D'] → ts[0]? ≠ some ['S', 'U', 'B'] → (extract w 27 5).toNat = 0) ∧
      (extract w 16 4).toNat = destinationField marker ts[1]? ∧
      (extract w 8 8).toNat = operandField marker ts[2]? ∧ (extract w 0 8).toNat = operandField marker ts[3]? ∧
      extract w 22 5 = 0 ∧ extract w 20 2 = 0 ∧
      (ts.length ≤ 1 → extract w 0 20 = 0) ∧ (ts.length ≤ 2 → extract w 0 16 = 0) ∧ (ts.length ≤ 3 → extract w 0 8 = 0)

/-- R78 to R83: the field an operand token gives. A literal below 256 gives itself, its low four bits as a destination; a
register below 16 gives its index, with bit 7 set as a source; oversized ones and every other token give 0. The grammar and
the flag of an out-of-range token are decisions D17 to D19. A marker that is a digit is never register syntax, since rule 1 comes
first (R78). -/
def Obligations.OperandTokensGiveTheirFields : Prop :=
  ∀ (marker : Char) (t : Token),
    (∀ v, parseUnsigned t = some v → v < 256 →
      operandField marker (some t) = v ∧ destinationField marker (some t) = v % 16) ∧
    (∀ v, parseUnsigned t = some v → 256 ≤ v →
      operandField marker (some t) = 0 ∧ destinationField marker (some t) = 0) ∧
    (∀ digits i, parseUnsigned t = none → t = marker :: digits → parseUnsigned digits = some i → i < 16 →
      operandField marker (some t) = 128 + i ∧ destinationField marker (some t) = i) ∧
    (∀ digits i, parseUnsigned t = none → t = marker :: digits → parseUnsigned digits = some i → 16 ≤ i →
      operandField marker (some t) = 0 ∧ destinationField marker (some t) = 0) ∧
    (parseUnsigned t = none → (∀ digits, t = marker :: digits → parseUnsigned digits = none) →
      operandField marker (some t) = 0 ∧ destinationField marker (some t) = 0)

/-- A line whose literals are all 0 to 127 assembles to a canonical word (30_encoding.md section 5), for every choice of
`REG_MARKER`. What a literal and a token are is decisions D17, D18, D20 and D21 (log 22). -/
def Obligations.SmallLiteralLinesAssembleToCanonicalWords : Prop :=
  ∀ (p : Config.Params) (line : List Char),
    (∀ t ∈ tokens line, ∀ v, parseUnsigned t = some v → v < 128) → canonical (assemble p line) = true

/-- A line with an unrecognised or absent mnemonic assembles, never as an error, to a word with op-code 0
(30_encoding.md section 6), and that word, run, halts the block and changes no register (42_control.md). That `x[15]` too stays
as it was, after a non-zero such word, is the spec's decision D6 (log 17); what a token is, its decision D21 (log 22). -/
def Obligations.UnrecognisedMnemonicAssemblesToAHalt : Prop :=
  ∀ (p : Config.Params) (line : List Char) (s : State),
    (tokens line).head? ≠ some ['A', 'D', 'D'] → (tokens line).head? ≠ some ['S', 'U', 'B'] →
    (opcodeOf (assemble p line)).toNat = 0 ∧
    ∃ t, exec (decode (assemble p line)) s = .next t ∧ t.run = .halted ∧ t.regs = s.regs ∧ t.mem = s.mem

/-- A literal from 128 to 255 is encoded as itself and executes as a register reference (R83, 90_conflicts.md C3): register
`v - 128` up to 143, register 0 above (D7). -/
def Obligations.LiteralAbove127ExecutesAsARegister : Prop :=
  ∀ (marker : Char) (t : Token) (v : Nat) (s : State), parseUnsigned t = some v → 128 ≤ v → v < 256 →
    operandField marker (some t) = v ∧
    operandValue (BitVec.ofNat 8 (operandField marker (some t))) s =
      s.reg (if h : v < 144 then ⟨v - 128, by omega⟩ else 0)

/-- R74 and R75, with the whitespace of decision D21 and the fourth-token cut of decision D20 (log 22): the four whitespace
characters and no other split a line; the parts on each side are split alike; a run of other characters is one token; so
leading, trailing and repeated whitespace yield none. And a program's lines assemble one word each, in their order. -/
def Obligations.LinesSplitIntoTokensAtWhitespace : Prop :=
  (∀ c : Char, isWhitespace c = true ↔ c.toNat = 32 ∨ c.toNat = 9 ∨ c.toNat = 13 ∨ c.toNat = 10) ∧
  tokens [] = [] ∧
  (∀ line : List Char, line ≠ [] → (∀ c ∈ line, isWhitespace c = false) → tokens line = [line]) ∧
  (∀ (before after : List Char) (c : Char), isWhitespace c = true →
    tokens (before ++ c :: after) = tokens before ++ tokens after) ∧
  (∀ line : List Char, ∀ t ∈ tokens line, t ≠ [] ∧ ∀ c ∈ t, isWhitespace c = false) ∧
  (∀ (p : Config.Params) (line : List Char), assemble p line = assembleTokens p.regMarker ((tokens line).take 4)) ∧
  (∀ (p : Config.Params) (lines : List (List Char)) (i : Nat),
    (assembleLines p lines)[i]? = (lines[i]?).map (assemble p))

/-- R78's integers, by decision D18 (log 22): a token is one exactly when it is not empty and all its characters are the ASCII
digits `0` to `9` (codes 48 to 57), and its value is the decimal number it spells, of any size and with leading zeros. -/
def Obligations.DigitTokensSpellTheirDecimalNumber : Prop :=
  (∀ t : Token, parseUnsigned t ≠ none ↔ t ≠ [] ∧ ∀ c ∈ t, 48 ≤ c.toNat ∧ c.toNat ≤ 57) ∧
  (∀ c : Char, 48 ≤ c.toNat → c.toNat ≤ 57 → parseUnsigned [c] = some (c.toNat - 48)) ∧
  (∀ (t : Token) (c : Char) (v : Nat), parseUnsigned t = some v → 48 ≤ c.toNat → c.toNat ≤ 57 →
    parseUnsigned (t ++ [c]) = some (10 * v + (c.toNat - 48)))

/-- The 3-bit codes of the halt cause (10_state.md section 4, `cause_o` of 40_dispatch.md section 1): 0 to 4 in the order of
the table, never 5 to 7; and the code a halting step leaves, and the block's `cause_o` gives, for each of the four halts. The
register and its codes are the spec's decision D3 (log 16), the ports its decision D1. The model's choices are that no cause
has a code from 5 to 7 (log 8), and the value of `cause_o` where `halt_o` is 0 and R90 calls it not meaningful (log 14). -/
def Obligations.HaltCauseCodesAreThoseOfTheTable : Prop :=
  (HaltCause.none.code.toNat = 0 ∧ HaltCause.haltSentinel.code.toNat = 1 ∧ HaltCause.haltNop.code.toNat = 2 ∧
    HaltCause.unknownOpcode.code.toNat = 3 ∧ HaltCause.pcOutOfRange.code.toNat = 4) ∧
  (∀ c : HaltCause, c.code.toNat ≤ 4) ∧
  (∀ i : BlockIn, (block i).cause.code.toNat =
    if 2048 ≤ i.pc.toNat then 4 else if i.instr = 0 then 1 else if (opcodeOf i.instr).toNat = 0 then 2 else 3) ∧
  (∀ s t : State, s.run = .running → step s = .next t → t.run = .halted →
    (2048 ≤ s.pc.toNat → t.cause.code.toNat = 4) ∧
    ∀ w, s.fetch = some w →
      t.cause.code.toNat = if w = 0 then 1 else if (opcodeOf w).toNat = 0 then 2 else 3)

/-- `canonical` (30_encoding.md section 5) is what its text says: bits 26-20 are 0, the op-code is 0, 1 or 2, and each operand
byte is an immediate or a register reference below 16, that is below 144. So a running block never halts on a canonical word
with `UNKNOWN_OPCODE`, the cause of decisions D3 and D4. -/
def Obligations.CanonicalWordsHaveNoReservedPart : Prop :=
  ∀ w : Word,
    (canonical w = true ↔
      (∀ k, 20 ≤ k → k < 27 → w.getLsbD k = false) ∧ (opcodeOf w).toNat ≤ 2 ∧
        (operandsOf w).op2.toNat < 144 ∧ (operandsOf w).op3.toNat < 144) ∧
    (canonical w = true → ∀ s t : State, s.cause ≠ .unknownOpcode → exec (decode w) s = .next t →
      t.cause ≠ .unknownOpcode)

/-- The output ports (40_dispatch.md section 1; the ports are the spec's decision D1): on a
state with a fetched word they carry that word's address, fields, operand modes, register indices and operand values, and
`sel_o` the handler; out of range `fetch_ok_o` is 0 and nothing executes. That a port has its equation's value in every state,
on a halted block too, and that a port of one bit is a `Bool`, is the model's choice (log 14). -/
def Obligations.PortsCarryTheFetchedWordsFieldsAndOperands : Prop :=
  ∀ s : State,
    let o := block (blockInputs s)
    (∀ w, s.fetch = some w →
      o.fetchOk = true ∧ o.imemAddr.val = s.pc.toNat ∧ (o.sentinel = true ↔ w = 0) ∧
      o.opcode = opcodeOf w ∧ o.cond = (unreadOf w).cond ∧ o.rd = (operandsOf w).rd ∧ o.waddr = (operandsOf w).rd ∧
      o.op2 = (operandsOf w).op2 ∧ o.op3 = (operandsOf w).op3 ∧
      o.aIsReg = (resolve (operandsOf w).op2).isReg ∧ o.raIdx = (resolve (operandsOf w).op2).idx ∧
      o.bIsReg = (resolve (operandsOf w).op3).isReg ∧ o.rbIdx = (resolve (operandsOf w).op3).idx ∧
      o.opndA = operandValue (operandsOf w).op2 s ∧ o.opndB = operandValue (operandsOf w).op3 s ∧
      o.sel.toNat = min (opcodeOf w).toNat 3 ∧ (o.exec = true ↔ s.run = .running ∧ w ≠ 0) ∧
      (o.we = true ↔ s.run = .running ∧ ((opcodeOf w).toNat = 1 ∨ (opcodeOf w).toNat = 2)) ∧
      (o.halt = true ↔ s.run = .running ∧ (opcodeOf w).toNat ≠ 1 ∧ (opcodeOf w).toNat ≠ 2)) ∧
    (s.fetch = none → o.fetchOk = false ∧ o.exec = false ∧ o.we = false ∧ (o.halt = true ↔ s.run = .running))

/-- R10's widening: `zext_32` keeps the unsigned value, `sext_N` the signed one and copies bit `N - 1` into every bit above. -/
def Obligations.WideningKeepsTheValue : Prop :=
  ∀ (n : Nat) (v : BitVec n), 0 < n → n ≤ 32 →
    (zext32 v).toNat = v.toNat ∧ (sext32 v).toInt = v.toInt ∧
    ∀ k, k < 32 → (sext32 v).getLsbD k = if k < n then v.getLsbD k else v.getLsbD (n - 1)
end

