-- ==== Sys2Proof/Laws/Encoding.lean ====
section
/-! SUPPORT. The laws of the unpacker, the layout and the decoder. -/

namespace Sys2Proof

/-! ## The unpacker -/

/-- The unpacker's value as a number (R61). -/
theorem extract_toNat {width : Nat} (w : BitVec width) (s n : Nat) :
    (extract w s n).toNat = w.toNat / 2 ^ s % 2 ^ n := by
  simp [extract]

/-- The unpacker is the library's bit-field extraction. -/
theorem extract_eq_extractLsb' {width : Nat} (w : BitVec width) (s n : Nat) : extract w s n = w.extractLsb' s n := by
  apply BitVec.eq_of_toNat_eq
  rw [extract_toNat, BitVec.extractLsb'_toNat, Nat.shiftRight_eq_div_pow]

/-- Bit `k` of a field is bit `s + k` of the word. -/
theorem extract_getLsbD {width : Nat} (w : BitVec width) (s n k : Nat) :
    (extract w s n).getLsbD k = (decide (k < n) && w.getLsbD (s + k)) := by
  rw [extract_eq_extractLsb', BitVec.getLsbD_extractLsb']

/-! ## The layout -/

/-- One bit of a laid-out word, from the field it lies in (R60). -/
theorem layOut_getLsbD (op : BitVec 5) (u : Unread) (f : Operands) (i : Nat) :
    (layOut op u f).getLsbD i =
      if i < 8 then f.op3.getLsbD i
      else if i < 16 then f.op2.getLsbD (i - 8)
      else if i < 20 then (BitVec.ofFin (w := 4) f.rd).getLsbD (i - 16)
      else if i < 22 then u.rsv.getLsbD (i - 20)
      else if i < 27 then u.cond.getLsbD (i - 22)
      else op.getLsbD (i - 27) := by
  simp only [layOut, BitVec.getLsbD_append]
  grind

/-- The op-code of a laid-out word. -/
theorem opcodeOf_layOut (op : BitVec 5) (u : Unread) (f : Operands) : opcodeOf (layOut op u f) = op := by
  apply BitVec.eq_of_getLsbD_eq
  intro i hi
  rw [opcodeOf, extract_getLsbD, layOut_getLsbD]
  grind

/-- The operand fields of a laid-out word. -/
theorem operandsOf_layOut (op : BitVec 5) (u : Unread) (f : Operands) : operandsOf (layOut op u f) = f := by
  have hrd : extract (layOut op u f) 16 4 = BitVec.ofFin (w := 4) f.rd := by
    apply BitVec.eq_of_getLsbD_eq
    intro i hi
    rw [extract_getLsbD, layOut_getLsbD]
    grind
  have hop2 : extract (layOut op u f) 8 8 = f.op2 := by
    apply BitVec.eq_of_getLsbD_eq
    intro i hi
    rw [extract_getLsbD, layOut_getLsbD]
    grind
  have hop3 : extract (layOut op u f) 0 8 = f.op3 := by
    apply BitVec.eq_of_getLsbD_eq
    intro i hi
    rw [extract_getLsbD, layOut_getLsbD]
    grind
  rw [operandsOf, hrd, hop2, hop3]

/-- The unread fields of a laid-out word. -/
theorem unreadOf_layOut (op : BitVec 5) (u : Unread) (f : Operands) : unreadOf (layOut op u f) = u := by
  have hcond : extract (layOut op u f) 22 5 = u.cond := by
    apply BitVec.eq_of_getLsbD_eq
    intro i hi
    rw [extract_getLsbD, layOut_getLsbD]
    grind
  have hrsv : extract (layOut op u f) 20 2 = u.rsv := by
    apply BitVec.eq_of_getLsbD_eq
    intro i hi
    rw [extract_getLsbD, layOut_getLsbD]
    grind
  rw [unreadOf, hcond, hrsv]

/-- A word is the layout of its own fields: R60 accounts for every bit. -/
theorem layOut_fields (w : Word) : layOut (opcodeOf w) (unreadOf w) (operandsOf w) = w := by
  apply BitVec.eq_of_getLsbD_eq
  intro i hi
  rw [layOut_getLsbD]
  simp only [operandsOf, unreadOf, opcodeOf, BitVec.ofFin_toFin, extract_getLsbD]
  grind

/-- The layout loses nothing. -/
theorem layOut_eq_iff {op op' : BitVec 5} {u u' : Unread} {f f' : Operands} :
    layOut op u f = layOut op' u' f' ↔ op = op' ∧ u = u' ∧ f = f' := by
  constructor
  · intro h
    exact ⟨by rw [← opcodeOf_layOut op u f, h, opcodeOf_layOut], by rw [← unreadOf_layOut op u f, h, unreadOf_layOut],
      by rw [← operandsOf_layOut op u f, h, operandsOf_layOut]⟩
  · rintro ⟨rfl, rfl, rfl⟩; rfl

/-- Only zero fields lay out the all-zero word. -/
theorem layOut_eq_zero_iff {op : BitVec 5} {u : Unread} {f : Operands} :
    layOut op u f = 0 ↔ op = 0 ∧ u = ⟨0, 0⟩ ∧ f = ⟨0, 0, 0⟩ := by
  rw [show (0 : Word) = layOut 0 ⟨0, 0⟩ ⟨0, 0, 0⟩ by decide, layOut_eq_iff]

/-! ## The decoder -/

theorem decode_zero : decode 0 = .haltSentinel := rfl

/-- A word that is not the sentinel decodes to its op-code's row with its own fields. -/
theorem decode_of_ne_zero {w : Word} (h : w ≠ 0) :
    decode w = opcodeRow (opcodeOf w) (unreadOf w) (operandsOf w) := if_neg h

/-- A laid-out word that is not the sentinel decodes to the row of its op-code, with the fields it was laid out from. -/
theorem decode_layOut {op : BitVec 5} {u : Unread} {f : Operands} (h : layOut op u f ≠ 0) :
    decode (layOut op u f) = opcodeRow op u f := by
  rw [decode_of_ne_zero h, opcodeOf_layOut, unreadOf_layOut, operandsOf_layOut]

/-- A non-zero op-code keeps a laid-out word from being the sentinel. -/
theorem layOut_ne_zero {op : BitVec 5} (h : op ≠ 0) (u : Unread) (f : Operands) : layOut op u f ≠ 0 :=
  fun e => h (layOut_eq_zero_iff.mp e).1

/-- A property of the row of every op-code, from the 32 rows one by one. -/
theorem forall_opcode_rows {P : BitVec 5 → (Unread → Operands → Instr) → Prop}
    (h : ∀ i : Fin 32, P (BitVec.ofFin (w := 5) i) (opcodeRow (BitVec.ofFin (w := 5) i)))
    (op : BitVec 5) : P op (opcodeRow op) :=
  h op.toFin

/-! ## The 32 rows and the sentinel -/

/-- Every instruction is the sentinel or the row of an op-code. -/
theorem Instr.eq_sentinel_or_row (i : Instr) : i = .haltSentinel ∨ ∃ op u f, i = opcodeRow op u f := by
  cases i with
  | haltSentinel => exact .inl rfl
  | nop u f => exact .inr ⟨0, u, f, rfl⟩
  | add u f => exact .inr ⟨1, u, f, rfl⟩
  | sub u f => exact .inr ⟨2, u, f, rfl⟩
  | rsvd3 u f => exact .inr ⟨3, u, f, rfl⟩
  | rsvd4 u f => exact .inr ⟨4, u, f, rfl⟩
  | rsvd5 u f => exact .inr ⟨5, u, f, rfl⟩
  | rsvd6 u f => exact .inr ⟨6, u, f, rfl⟩
  | rsvd7 u f => exact .inr ⟨7, u, f, rfl⟩
  | rsvd8 u f => exact .inr ⟨8, u, f, rfl⟩
  | rsvd9 u f => exact .inr ⟨9, u, f, rfl⟩
  | rsvd10 u f => exact .inr ⟨10, u, f, rfl⟩
  | rsvd11 u f => exact .inr ⟨11, u, f, rfl⟩
  | rsvd12 u f => exact .inr ⟨12, u, f, rfl⟩
  | rsvd13 u f => exact .inr ⟨13, u, f, rfl⟩
  | rsvd14 u f => exact .inr ⟨14, u, f, rfl⟩
  | rsvd15 u f => exact .inr ⟨15, u, f, rfl⟩
  | rsvd16 u f => exact .inr ⟨16, u, f, rfl⟩
  | rsvd17 u f => exact .inr ⟨17, u, f, rfl⟩
  | rsvd18 u f => exact .inr ⟨18, u, f, rfl⟩
  | rsvd19 u f => exact .inr ⟨19, u, f, rfl⟩
  | rsvd20 u f => exact .inr ⟨20, u, f, rfl⟩
  | rsvd21 u f => exact .inr ⟨21, u, f, rfl⟩
  | rsvd22 u f => exact .inr ⟨22, u, f, rfl⟩
  | rsvd23 u f => exact .inr ⟨23, u, f, rfl⟩
  | rsvd24 u f => exact .inr ⟨24, u, f, rfl⟩
  | rsvd25 u f => exact .inr ⟨25, u, f, rfl⟩
  | rsvd26 u f => exact .inr ⟨26, u, f, rfl⟩
  | rsvd27 u f => exact .inr ⟨27, u, f, rfl⟩
  | rsvd28 u f => exact .inr ⟨28, u, f, rfl⟩
  | rsvd29 u f => exact .inr ⟨29, u, f, rfl⟩
  | rsvd30 u f => exact .inr ⟨30, u, f, rfl⟩
  | rsvd31 u f => exact .inr ⟨31, u, f, rfl⟩

/-- The word of a row is the layout with the row's op-code. -/
theorem encode_opcodeRow (op : BitVec 5) (u : Unread) (f : Operands) : encode (opcodeRow op u f) = layOut op u f := by
  refine forall_opcode_rows (P := fun op row => encode (row u f) = layOut op u f) ?_ op
  intro i
  fin_cases i <;> rfl

/-- A row whose word is not the sentinel's is well-formed. -/
theorem wellFormed_opcodeRow {op : BitVec 5} {u : Unread} {f : Operands} (h : layOut op u f ≠ 0) :
    (opcodeRow op u f).WellFormed := by
  revert h
  refine forall_opcode_rows (P := fun op row => layOut op u f ≠ 0 → (row u f).WellFormed) ?_ op
  intro i h
  fin_cases i <;> try rfl
  show (!(decide _ && decide _)) = true
  rw [Bool.not_eq_true', Bool.and_eq_false_iff, decide_eq_false_iff_not, decide_eq_false_iff_not]
  by_contra hc
  rw [not_or, not_not, not_not] at hc
  exact h (layOut_eq_zero_iff.mpr ⟨rfl, hc.1, hc.2⟩)

/-- A word with bits 26-20 cleared is the layout of its other fields (R63). -/
theorem and_clear_unread (w : Word) : w &&& 0xF80FFFFF = layOut (opcodeOf w) ⟨0, 0⟩ (operandsOf w) := by
  conv_lhs => rw [← layOut_fields w]
  apply BitVec.eq_of_getLsbD_eq
  intro i hi
  have hmask : (0xF80FFFFF : Word).getLsbD i = (decide (27 ≤ i) || decide (i < 20)) := by
    have : ∀ i : Fin 32, (0xF80FFFFF : Word).getLsbD i = (decide (27 ≤ i.val) || decide (i.val < 20)) := by decide
    exact this ⟨i, hi⟩
  rw [BitVec.getLsbD_and, layOut_getLsbD, layOut_getLsbD, hmask]
  grind

end Sys2Proof
end

