-- ==== Sys2Proof/Laws/Assembler.lean ====
section
/-! SUPPORT. The laws of the reference encoder: how lines split and digits read, its fields fit, and packing them is laying them out. -/

namespace Sys2Proof.Machine

/-! ## Lines and tokens -/

theorem consToken_append (t : Token) (rest : List Token) : consToken t rest = consToken t [] ++ rest := by
  unfold consToken
  split <;> rfl

/-- Whitespace splits a line, whatever has been read before it (R74). -/
theorem tokensFrom_append_whitespace (pending : Token) (before after : List Char) {c : Char}
    (h : isWhitespace c = true) :
    tokensFrom pending (before ++ c :: after) = tokensFrom pending before ++ tokensFrom [] after := by
  induction before generalizing pending with
  | nil =>
    rw [List.nil_append, tokensFrom.eq_2, if_pos h]
    exact consToken_append _ _
  | cons x before ih =>
    rw [List.cons_append, tokensFrom, tokensFrom]
    split
    · rw [ih, consToken_append, consToken_append (rest := tokensFrom [] before), List.append_assoc]
    · exact ih _

/-- Characters that are no whitespace run on in one token (R74). -/
theorem tokensFrom_of_no_whitespace (pending : Token) {line : List Char} (h : ∀ c ∈ line, isWhitespace c = false) :
    tokensFrom pending line = consToken (pending ++ line) [] := by
  induction line generalizing pending with
  | nil => rw [tokensFrom, List.append_nil]
  | cons x line ih =>
    have hx : ¬ isWhitespace x = true := by simp [h x (List.mem_cons_self ..)]
    rw [tokensFrom, if_neg hx, ih _ fun c hc => h c (List.mem_cons_of_mem _ hc), List.append_assoc]
    rfl

/-- No token is empty or holds whitespace (R74). -/
theorem mem_tokensFrom {pending : Token} {line : List Char} (hp : ∀ c ∈ pending, isWhitespace c = false) {t : Token}
    (ht : t ∈ tokensFrom pending line) : t ≠ [] ∧ ∀ c ∈ t, isWhitespace c = false := by
  have hcons : ∀ {u : Token} {rest : List Token}, t ∈ consToken u rest → (t = u ∧ u ≠ []) ∨ t ∈ rest := by
    intro u rest hu
    unfold consToken at hu
    grind
  induction line generalizing pending with
  | nil =>
    rcases hcons ht with ⟨rfl, hne⟩ | hnil
    · exact ⟨hne, hp⟩
    · cases hnil
  | cons x line ih =>
    rw [tokensFrom] at ht
    split at ht
    · rcases hcons ht with ⟨rfl, hne⟩ | hrest
      · exact ⟨hne, hp⟩
      · exact ih (by simp) hrest
    · exact ih (by grind) ht

/-! ## Digits -/

theorem isDigit_iff (c : Char) : isDigit c = true ↔ 48 ≤ c.toNat ∧ c.toNat ≤ 57 := by simp [isDigit]

/-- A number is spelled exactly by the non-empty strings of digits (R78). -/
theorem parseUnsigned_ne_none_iff (t : Token) :
    parseUnsigned t ≠ none ↔ t ≠ [] ∧ ∀ c ∈ t, isDigit c = true := by
  unfold parseUnsigned
  rw [← List.all_eq_true, ← List.isEmpty_eq_false_iff]
  cases t.isEmpty <;> cases t.all isDigit <;> simp

/-- One more digit is ten times the number and the digit (R78). -/
theorem parseUnsigned_append_digit {t : Token} {c : Char} {v : Nat} (h : parseUnsigned t = some v)
    (hc : isDigit c = true) : parseUnsigned (t ++ [c]) = some (10 * v + (c.toNat - 48)) := by
  have hall := ((parseUnsigned_ne_none_iff t).mp (by rw [h]; exact Option.some_ne_none v)).2
  have hv : t.foldl (fun value c => value * 10 + (c.toNat - 48)) 0 = v := by
    unfold parseUnsigned at h
    split at h
    · cases h
    · exact Option.some.inj h
  unfold parseUnsigned
  rw [if_neg (by simp [hc]; exact hall), List.foldl_append, hv, Nat.mul_comm]
  rfl

/-! ## Fields fit -/

theorem mnemonicOpcode_lt (t : Option Token) : mnemonicOpcode t < 3 := by unfold mnemonicOpcode; grind

theorem destinationField_lt (marker : Char) (t : Option Token) : destinationField marker t < 16 := by
  cases t with
  | none => simp [destinationField]
  | some t => exact lt_of_le_of_lt Nat.and_le_right (by decide)

theorem operandField_lt (marker : Char) (t : Option Token) : operandField marker t < 256 := by
  cases t with
  | none => simp [operandField]
  | some t =>
    refine Nat.or_lt_two_pow (n := 8) (lt_of_le_of_lt Nat.and_le_right (by decide)) ?_
    split <;> decide

/-! ## Packing is laying out -/

theorem pack_getLsbD (v s i : Nat) :
    (pack v s).getLsbD i = (decide (i < 32) && (decide (s ≤ i) && v.testBit (i - s))) := by
  rw [pack, BitVec.getLsbD_ofNat, Nat.testBit_mul_two_pow]

/-- The word packed from fields that fit is the word laid out from them (R60, R73). -/
theorem pack_eq_layOut {op rd f2 f3 : Nat} (hrd : rd < 16) (h2 : f2 < 256) (h3 : f3 < 256) :
    pack op 27 ||| pack 0 22 ||| pack rd 16 ||| pack f2 8 ||| pack f3 0 =
      layOut (BitVec.ofNat 5 op) ⟨0, 0⟩ ⟨⟨rd, hrd⟩, BitVec.ofNat 8 f2, BitVec.ofNat 8 f3⟩ := by
  have beyond : ∀ {v n : Nat} (i : Nat), v < 2 ^ n → n ≤ i → v.testBit i = false := fun i hv hi =>
    Nat.testBit_lt_two_pow (lt_of_lt_of_le hv (Nat.pow_le_pow_right (by decide) hi))
  have b2 := fun i => beyond (n := 8) i h2
  have b3 := fun i => beyond (n := 8) i h3
  have br := fun i => beyond (n := 4) i hrd
  apply BitVec.eq_of_getLsbD_eq
  intro i hi
  have hrdbit : (BitVec.ofFin (w := 4) ⟨rd, hrd⟩).getLsbD (i - 16) = rd.testBit (i - 16) := rfl
  rw [layOut_getLsbD, hrdbit]
  simp only [BitVec.getLsbD_or, pack_getLsbD, BitVec.getLsbD_ofNat, Nat.zero_testBit]
  clear beyond hrdbit
  grind

/-- The word of a line, field by field (R73). -/
theorem assembleTokens_eq_layOut (marker : Char) (ts : List Token) :
    assembleTokens marker ts =
      layOut (BitVec.ofNat 5 (mnemonicOpcode ts[0]?)) ⟨0, 0⟩
        ⟨⟨destinationField marker ts[1]?, destinationField_lt marker _⟩,
          BitVec.ofNat 8 (operandField marker ts[2]?), BitVec.ofNat 8 (operandField marker ts[3]?)⟩ :=
  pack_eq_layOut _ (operandField_lt marker _) (operandField_lt marker _)

/-! ## What a token resolves to -/

theorem resolveImmediate_literal (marker : Char) {t : Token} {v : Nat} (h : parseUnsigned t = some v) :
    resolveImmediate marker t = if v < 256 then (v, false) else (0, false) := by
  simp only [resolveImmediate, h]

theorem resolveImmediate_register (marker : Char) {digits : Token} {i : Nat}
    (hm : isDigit marker = false) (h : parseUnsigned digits = some i) :
    resolveImmediate marker (marker :: digits) = if i < 16 then (i, true) else (0, false) := by
  have hp : parseUnsigned (marker :: digits) = none := by simp [parseUnsigned, hm]
  simp only [resolveImmediate, hp, resolveRegister, if_true, h]

/-- Every result of the resolver: a literal below 256, a register below 16, or 0. -/
theorem resolveImmediate_cases (marker : Char) (t : Token) :
    (∃ v, parseUnsigned t = some v ∧ v < 256 ∧ resolveImmediate marker t = (v, false)) ∨
      (∃ i, i < 16 ∧ resolveImmediate marker t = (i, true)) ∨ resolveImmediate marker t = (0, false) := by
  unfold resolveImmediate resolveRegister
  grind

end Sys2Proof.Machine
end

