-- ==== Sys2Proof/Laws/State.lean ====
section
/-! SUPPORT. One lemma per field per update of `State`, so that no later proof unfolds a record update. -/

namespace Sys2Proof.Machine

/-! ## `setReg` -/

@[simp] theorem State.setReg_mem (s : State) (i : RegIdx) (v : Word) : (s.setReg i v).mem = s.mem := rfl
@[simp] theorem State.setReg_run (s : State) (i : RegIdx) (v : Word) : (s.setReg i v).run = s.run := rfl
@[simp] theorem State.setReg_cause (s : State) (i : RegIdx) (v : Word) : (s.setReg i v).cause = s.cause := rfl
@[simp] theorem State.setReg_memRead (s : State) (i : RegIdx) (v : Word) (a : Addr) :
    (s.setReg i v).memRead a = s.memRead a := rfl

@[simp] theorem State.reg_setReg_self (s : State) (i : RegIdx) (v : Word) : (s.setReg i v).reg i = v := by
  simp [State.reg, State.setReg]

theorem State.reg_setReg_of_ne (s : State) {i j : RegIdx} (v : Word) (h : j ≠ i) :
    (s.setReg i v).reg j = s.reg j := by
  have hne : (i : Nat) ≠ j := fun e => h (Fin.ext e.symm)
  simp [State.reg, State.setReg, hne]

theorem State.reg_setReg (s : State) (i j : RegIdx) (v : Word) :
    (s.setReg i v).reg j = if j = i then v else s.reg j := by
  by_cases h : j = i
  · subst h; simp
  · simp [h, State.reg_setReg_of_ne]

/-- Two states with the same registers, read one by one, have the same register file. -/
theorem State.regs_ext {s t : State} (h : ∀ i, s.reg i = t.reg i) : s.regs = t.regs :=
  Vector.ext fun i hi => h ⟨i, hi⟩

/-- Writing to a register what it holds changes nothing. -/
theorem State.setReg_reg (s : State) (i : RegIdx) : s.setReg i (s.reg i) = s := by
  simp [State.setReg, State.reg]

/-- Of two writes to one register, the second stays. -/
theorem State.setReg_setReg (s : State) (i : RegIdx) (v w : Word) : (s.setReg i v).setReg i w = s.setReg i w := by
  simp [State.setReg]

/-! ## `setPc` and `advancePc` -/

@[simp] theorem State.setPc_mem (s : State) (v : Word) : (s.setPc v).mem = s.mem := rfl
@[simp] theorem State.setPc_run (s : State) (v : Word) : (s.setPc v).run = s.run := rfl
@[simp] theorem State.setPc_cause (s : State) (v : Word) : (s.setPc v).cause = s.cause := rfl
@[simp] theorem State.setPc_pc (s : State) (v : Word) : (s.setPc v).pc = v := State.reg_setReg_self s _ v
@[simp] theorem State.advancePc_mem (s : State) : s.advancePc.mem = s.mem := rfl
@[simp] theorem State.advancePc_run (s : State) : s.advancePc.run = s.run := rfl
@[simp] theorem State.advancePc_cause (s : State) : s.advancePc.cause = s.cause := rfl
@[simp] theorem State.advancePc_memRead (s : State) (a : Addr) : s.advancePc.memRead a = s.memRead a := rfl
@[simp] theorem State.advancePc_pc (s : State) : s.advancePc.pc = s.pc + 1 := State.setPc_pc s _

theorem State.reg_advancePc_of_ne (s : State) {i : RegIdx} (h : i ≠ 15) : s.advancePc.reg i = s.reg i :=
  State.reg_setReg_of_ne s _ h

/-! ## `raiseHalt` -/

@[simp] theorem State.raiseHalt_regs (s : State) (c : HaltCause) : (s.raiseHalt c).regs = s.regs := rfl
@[simp] theorem State.raiseHalt_mem (s : State) (c : HaltCause) : (s.raiseHalt c).mem = s.mem := rfl
@[simp] theorem State.raiseHalt_run (s : State) (c : HaltCause) : (s.raiseHalt c).run = .halted := rfl
@[simp] theorem State.raiseHalt_cause (s : State) (c : HaltCause) : (s.raiseHalt c).cause = c := rfl
@[simp] theorem State.raiseHalt_reg (s : State) (c : HaltCause) (i : RegIdx) : (s.raiseHalt c).reg i = s.reg i := rfl
@[simp] theorem State.raiseHalt_pc (s : State) (c : HaltCause) : (s.raiseHalt c).pc = s.pc := rfl
@[simp] theorem State.raiseHalt_memRead (s : State) (c : HaltCause) (a : Addr) :
    (s.raiseHalt c).memRead a = s.memRead a := rfl

/-! ## `memWrite` -/

@[simp] theorem State.memWrite_regs (s : State) (a : Addr) (v : Word) : (s.memWrite a v).regs = s.regs := rfl
@[simp] theorem State.memWrite_run (s : State) (a : Addr) (v : Word) : (s.memWrite a v).run = s.run := rfl
@[simp] theorem State.memWrite_cause (s : State) (a : Addr) (v : Word) : (s.memWrite a v).cause = s.cause := rfl
@[simp] theorem State.memWrite_pc (s : State) (a : Addr) (v : Word) : (s.memWrite a v).pc = s.pc := rfl

end Sys2Proof.Machine
end

