-- ==== Sys2Proof/Laws/Memory.lean ====
section
/-! SUPPORT. The laws of memory: read after write, and that a write keeps the canonical form. -/

namespace Sys2Proof.Machine

@[simp] theorem Memory.read_nil (a : Nat) : Memory.read [] a = 0 := rfl

theorem Memory.read_cons (k : Nat) (v : Word) (m : Memory) (a : Nat) :
    Memory.read ((k, v) :: m) a = if a = k then v else Memory.read m a := rfl

/-- The canonical form of a list that is not empty. -/
theorem Memory.wfFrom_cons {lo k : Nat} {v : Word} {m : Memory} :
    Memory.wfFrom lo ((k, v) :: m) = true ↔ lo ≤ k ∧ k < 2048 ∧ v ≠ 0 ∧ Memory.wfFrom (k + 1) m = true := by
  simp only [Memory.wfFrom, Bool.and_eq_true, Bool.not_eq_true', decide_eq_true_eq, decide_eq_false_iff_not, and_assoc]
  rfl

/-- A canonical memory holds 0 below its first index. -/
theorem Memory.read_below {m : Memory} {lo a : Nat} (h : Memory.wfFrom lo m = true) (ha : a < lo) :
    Memory.read m a = 0 := by
  induction m generalizing lo with
  | nil => rfl
  | cons e m ih =>
    obtain ⟨k, v⟩ := e
    obtain ⟨hlo, -, -, hm⟩ := Memory.wfFrom_cons.mp h
    rw [Memory.read_cons, if_neg (by omega), ih hm (by omega)]

theorem Memory.wfFrom_mono {m : Memory} {lo lo' : Nat} (h : Memory.wfFrom lo m = true) (hle : lo' ≤ lo) :
    Memory.wfFrom lo' m = true := by
  cases m with
  | nil => rfl
  | cons e m =>
    obtain ⟨hlo, rest⟩ := Memory.wfFrom_cons.mp h
    exact Memory.wfFrom_cons.mpr ⟨hle.trans hlo, rest⟩

/-- `Memory.cons` puts one word in front of a memory that starts later. -/
theorem Memory.wfFrom_of_cons {m : Memory} {lo a : Nat} (v : Word) (h : Memory.wfFrom (a + 1) m = true)
    (hlo : lo ≤ a) (ha : a < 2048) : Memory.wfFrom lo (Memory.cons a v m) = true := by
  unfold Memory.cons
  split
  · exact Memory.wfFrom_mono h (by omega)
  · exact Memory.wfFrom_cons.mpr ⟨hlo, ha, ‹_›, h⟩

theorem Memory.read_of_cons {m : Memory} {a : Nat} (v : Word) (b : Nat) (h : Memory.wfFrom (a + 1) m = true) :
    Memory.read (Memory.cons a v m) b = if b = a then v else Memory.read m b := by
  unfold Memory.cons
  split
  · rename_i hv
    split
    · subst b; rw [hv, Memory.read_below h (by omega)]; rfl
    · rfl
  · rfl

theorem Memory.wfFrom_write {m : Memory} {lo a : Nat} (v : Word) (h : Memory.wfFrom lo m = true) (hlo : lo ≤ a)
    (ha : a < 2048) : Memory.wfFrom lo (Memory.write m a v) = true := by
  induction m generalizing lo with
  | nil => exact Memory.wfFrom_of_cons v rfl hlo ha
  | cons e m ih =>
    obtain ⟨k, x⟩ := e
    obtain ⟨hk, hk', hx, hm⟩ := Memory.wfFrom_cons.mp h
    rw [Memory.write]
    split
    · exact Memory.wfFrom_of_cons v (Memory.wfFrom_cons.mpr ⟨by omega, hk', hx, hm⟩) hlo ha
    · split
      · subst a; exact Memory.wfFrom_of_cons v hm hlo ha
      · exact Memory.wfFrom_cons.mpr ⟨hk, hk', hx, ih hm (by omega)⟩

theorem Memory.readFrom_write {m : Memory} {lo a : Nat} (v : Word) (b : Nat) (h : Memory.wfFrom lo m = true) :
    Memory.read (Memory.write m a v) b = if b = a then v else Memory.read m b := by
  induction m generalizing lo with
  | nil => exact Memory.read_of_cons v b rfl
  | cons e m ih =>
    obtain ⟨k, x⟩ := e
    obtain ⟨hk, hk', hx, hm⟩ := Memory.wfFrom_cons.mp h
    rw [Memory.write]
    split
    · exact Memory.read_of_cons v b (Memory.wfFrom_cons.mpr ⟨by omega, hk', hx, hm⟩)
    · split
      · subst a
        rw [Memory.read_of_cons v b hm, Memory.read_cons]
        split <;> rfl
      · rw [Memory.read_cons, ih hm, Memory.read_cons]
        grind

/-- A write keeps the canonical form. -/
theorem Memory.wf_write {m : Memory} {a : Nat} (v : Word) (h : m.wf = true) (ha : a < 2048) :
    (Memory.write m a v).wf = true :=
  Memory.wfFrom_write v h (Nat.zero_le a) ha

/-- A word reads as it was written, and every other word as before. -/
theorem Memory.read_write {m : Memory} (h : m.wf = true) (a b : Nat) (v : Word) :
    Memory.read (Memory.write m a v) b = if b = a then v else Memory.read m b :=
  Memory.readFrom_write v b h

/-- No word outside the memory is listed. -/
theorem Memory.readFrom_above {m : Memory} {lo a : Nat} (h : Memory.wfFrom lo m = true) (ha : 2048 ≤ a) :
    Memory.read m a = 0 := by
  induction m generalizing lo with
  | nil => rfl
  | cons e m ih =>
    obtain ⟨k, v⟩ := e
    obtain ⟨-, hk, -, hm⟩ := Memory.wfFrom_cons.mp h
    rw [Memory.read_cons, if_neg (by omega), ih hm]

/-- Canonical memories that read alike are equal. -/
theorem Memory.ext_of_wfFrom {m m' : Memory} {lo : Nat} (h : Memory.wfFrom lo m = true)
    (h' : Memory.wfFrom lo m' = true) (e : ∀ a, a < 2048 → Memory.read m a = Memory.read m' a) : m = m' := by
  induction m generalizing lo m' with
  | nil =>
    cases m' with
    | nil => rfl
    | cons x m' =>
      obtain ⟨k, v⟩ := x
      obtain ⟨-, hk, hv, -⟩ := Memory.wfFrom_cons.mp h'
      have hread := e k hk
      rw [Memory.read_cons, if_pos rfl] at hread
      exact absurd hread.symm hv
  | cons x m ih =>
    obtain ⟨k, v⟩ := x
    obtain ⟨-, hk, hv, hm⟩ := Memory.wfFrom_cons.mp h
    cases m' with
    | nil =>
      have hread := e k hk
      rw [Memory.read_cons, if_pos rfl] at hread
      exact absurd hread hv
    | cons y m' =>
      obtain ⟨k', v'⟩ := y
      obtain ⟨-, hk', hv', hm'⟩ := Memory.wfFrom_cons.mp h'
      have hkk : k = k' := by
        rcases lt_trichotomy k k' with hlt | heq | hlt
        · have hread := e k hk
          rw [Memory.read_cons, if_pos rfl, Memory.read_cons, if_neg (by omega), Memory.read_below hm' (by omega)] at hread
          exact absurd hread hv
        · exact heq
        · have hread := e k' hk'
          rw [Memory.read_cons, if_neg (by omega), Memory.read_below hm (by omega), Memory.read_cons, if_pos rfl] at hread
          exact absurd hread.symm hv'
      subst hkk
      have hvv : v = v' := by simpa only [Memory.read_cons, if_true] using e k hk
      subst hvv
      have htail : m = m' := ih hm hm' fun a ha => by
        rcases lt_or_ge a (k + 1) with hlt | hge
        · rw [Memory.read_below hm hlt, Memory.read_below hm' hlt]
        · have hread := e a ha
          rwa [Memory.read_cons, if_neg (by omega), Memory.read_cons, if_neg (by omega)] at hread
      rw [htail]

/-- `State.memRead` after `State.memWrite`. -/
theorem State.memRead_memWrite {s : State} (h : s.mem.wf = true) (a b : Addr) (v : Word) :
    (s.memWrite a v).memRead b = if b = a then v else s.memRead b := by
  rw [State.memRead, State.memWrite, Memory.read_write h]
  simp only [Fin.ext_iff]
  rfl

end Sys2Proof.Machine
end

