-- ==== Sys2Proof/Laws/Exec.lean ====
section
/-! SUPPORT. What the shared operations and the meanings can do, said once. -/

namespace Sys2Proof.Machine

/-! ## Arithmetic and operands -/

theorem add32_eq (a b : Word) : add32 a b = a + b := by
  apply BitVec.eq_of_toNat_eq
  simp [add32, BitVec.toNat_add]

theorem sub32_eq (a b : Word) : sub32 a b = a - b := by
  apply BitVec.eq_of_toNat_eq
  rw [sub32, BitVec.toNat_ofInt, BitVec.toNat_sub]
  omega

/-- Bit 7 of a byte is what the unpacker gives for it (R64). -/
theorem extract_bit7 (b : Byte) : extract b 7 1 = 1 ↔ 128 ≤ b.toNat := by
  have := b.isLt
  rw [← BitVec.toNat_inj, extract_toNat]
  show b.toNat / 2 ^ 7 % 2 ^ 1 = 1 ↔ _
  omega

/-- An immediate byte (R66). -/
theorem resolve_immediate {b : Byte} (h : b.toNat < 128) : resolve b = .imm (zext32 b) :=
  if_neg fun e => absurd ((extract_bit7 b).mp e) (by omega)

/-- A register byte `0x80` to `0x8F` (R64). -/
theorem resolve_register {b : Byte} (i : RegIdx) (h : b.toNat = 128 + i.val) : resolve b = .reg i := by
  have hi := i.isLt
  have hlow : (extract b 0 7).toNat < 16 := by rw [extract_toNat]; omega
  have hidx : (extract b 0 4).toFin = i := by
    apply Fin.ext
    show (extract b 0 4).toNat = i.val
    rw [extract_toNat]; omega
  rw [resolve, if_pos ((extract_bit7 b).mpr (by omega)), if_pos hlow, hidx]

/-- A register byte `0x90` to `0xFF`: the index is treated as 0 (R65). -/
theorem resolve_overflow {b : Byte} (h : 144 ≤ b.toNat) : resolve b = .reg 0 := by
  have := b.isLt
  have hlow : ¬ (extract b 0 7).toNat < 16 := by rw [extract_toNat]; omega
  rw [resolve, if_pos ((extract_bit7 b).mpr (by omega)), if_neg hlow]

/-- The three kinds of operand byte. -/
theorem byte_cases (b : Byte) : b.toNat < 128 ∨ (∃ i : RegIdx, b.toNat = 128 + i.val) ∨ 144 ≤ b.toNat := by
  by_cases h : b.toNat < 128
  · exact .inl h
  · by_cases h' : b.toNat < 144
    · exact .inr (.inl ⟨⟨b.toNat - 128, by omega⟩, by simp; omega⟩)
    · exact .inr (.inr (by omega))

/-- An operand's value depends on the registers alone. -/
theorem operandValue_congr {s t : State} (h : s.regs = t.regs) (b : Byte) : operandValue b s = operandValue b t := by
  simp only [operandValue, State.reg, h]

/-! ## Handlers and the end of a step -/

theorem finishStep_continue (h : Handler) (s : State) : finishStep h ⟨s, true⟩ = s.advancePc := rfl

theorem finishStep_stop (h : Handler) (s : State) : finishStep h ⟨s, false⟩ = s.raiseHalt (stopCause h) := rfl

theorem select_cases (op : BitVec 5) :
    (op.toNat = 0 ∧ select op = .nop) ∨ (op.toNat = 1 ∧ select op = .add) ∨
      (op.toNat = 2 ∧ select op = .sub) ∨ (3 ≤ op.toNat ∧ select op = .fallback) := by
  obtain h | h | h | h : op.toNat = 0 ∨ op.toNat = 1 ∨ op.toNat = 2 ∨ 3 ≤ op.toNat := by omega
  · exact .inl ⟨h, by simp [select, h]⟩
  · exact .inr (.inl ⟨h, by simp [select, h]⟩)
  · exact .inr (.inr (.inl ⟨h, by simp [select, h]⟩))
  · refine .inr (.inr (.inr ⟨h, ?_⟩))
    unfold select
    split <;> first | omega | rfl

/-- The operand of a byte below 144 is an immediate or a register reference in range (R71). -/
theorem canonicalByte_iff (b : Byte) : canonicalByte b = true ↔ b.toNat < 144 := by
  have hb := b.isLt
  have hbit : extract b 7 1 = 0 ↔ b.toNat < 128 := by
    rw [← BitVec.toNat_inj, extract_toNat]
    show b.toNat / 2 ^ 7 % 2 ^ 1 = 0 ↔ _
    omega
  rw [canonicalByte, Bool.or_eq_true, decide_eq_true_iff, decide_eq_true_iff, hbit, extract_toNat]
  omega

/-! ## Meanings -/

/-- A state with one register written and the program counter advanced: what ADD and SUB leave. -/
def State.retire (s : State) (rd : RegIdx) (v : Word) : State := (s.setReg rd v).advancePc

@[simp] theorem State.retire_mem (s : State) (rd : RegIdx) (v : Word) : (s.retire rd v).mem = s.mem := rfl
@[simp] theorem State.retire_run (s : State) (rd : RegIdx) (v : Word) : (s.retire rd v).run = s.run := rfl
@[simp] theorem State.retire_cause (s : State) (rd : RegIdx) (v : Word) : (s.retire rd v).cause = s.cause := rfl
@[simp] theorem State.retire_memRead (s : State) (rd : RegIdx) (v : Word) (a : Addr) :
    (s.retire rd v).memRead a = s.memRead a := rfl

/-- The program counter after a retired instruction: the advance sees the handler's write (R100). -/
theorem State.retire_pc (s : State) (rd : RegIdx) (v : Word) :
    (s.retire rd v).pc = (if rd = 15 then v else s.pc) + 1 := by
  rw [State.retire, State.advancePc_pc]
  congr 1
  split
  · subst rd; exact State.reg_setReg_self s _ v
  · exact State.reg_setReg_of_ne s v fun e => ‹¬ rd = 15› e.symm

theorem State.retire_reg_dest (s : State) {rd : RegIdx} (v : Word) (h : rd ≠ 15) : (s.retire rd v).reg rd = v := by
  rw [State.retire, State.reg_advancePc_of_ne _ h, State.reg_setReg_self]

theorem State.retire_reg_other (s : State) {rd i : RegIdx} (v : Word) (h : i ≠ rd) (h' : i ≠ 15) :
    (s.retire rd v).reg i = s.reg i := by
  rw [State.retire, State.reg_advancePc_of_ne _ h', State.reg_setReg_of_ne _ _ h]

/-- What ADD does, all of it. -/
theorem execAdd_eq (f : Operands) (s : State) :
    execAdd f s = .next (s.retire f.rd (operandValue f.op2 s + operandValue f.op3 s)) := by
  rw [← add32_eq]; rfl

/-- What SUB does, all of it. -/
theorem execSub_eq (f : Operands) (s : State) :
    execSub f s = .next (s.retire f.rd (operandValue f.op2 s - operandValue f.op3 s)) := by
  rw [← sub32_eq]; rfl

/-- What NOP does, all of it. -/
theorem execNop_eq (f : Operands) (s : State) : execNop f s = .next (s.raiseHalt .haltNop) := rfl

/-- What the fallback does, all of it. -/
theorem runFallback_eq (f : Operands) (s : State) : runFallback f s = .next (s.raiseHalt .unknownOpcode) := rfl

/-- What the sentinel does, all of it. -/
theorem execHaltSentinel_eq (s : State) : execHaltSentinel s = .next (s.raiseHalt .haltSentinel) := rfl

/-- What `exec` does with an op-code's row, in terms of the handler the multiplexer selects: the only four shapes. -/
theorem exec_row (op : BitVec 5) (u : Unread) (f : Operands) (s : State) :
    exec (opcodeRow op u f) s =
      match select op with
      | .nop => execNop f s
      | .add => execAdd f s
      | .sub => execSub f s
      | .fallback => runFallback f s := by
  refine forall_opcode_rows (P := fun op row => exec (row u f) s =
      match select op with
      | .nop => execNop f s
      | .add => execAdd f s
      | .sub => execSub f s
      | .fallback => runFallback f s) ?_ op
  intro i
  fin_cases i <;> rfl

/-- What `exec` can do with a decoded word: one case for each kind of word. -/
theorem exec_decode_cases (w : Word) (s : State) :
    (w = 0 ∧ exec (decode w) s = .next (s.raiseHalt .haltSentinel)) ∨
    (w ≠ 0 ∧ (opcodeOf w).toNat = 0 ∧ exec (decode w) s = .next (s.raiseHalt .haltNop)) ∨
    (w ≠ 0 ∧ (opcodeOf w).toNat = 1 ∧ exec (decode w) s = .next (s.retire (operandsOf w).rd
      (operandValue (operandsOf w).op2 s + operandValue (operandsOf w).op3 s))) ∨
    (w ≠ 0 ∧ (opcodeOf w).toNat = 2 ∧ exec (decode w) s = .next (s.retire (operandsOf w).rd
      (operandValue (operandsOf w).op2 s - operandValue (operandsOf w).op3 s))) ∨
    (w ≠ 0 ∧ 3 ≤ (opcodeOf w).toNat ∧ exec (decode w) s = .next (s.raiseHalt .unknownOpcode)) := by
  by_cases h : w = 0
  · subst h; exact .inl ⟨rfl, rfl⟩
  · right
    rw [decode_of_ne_zero h, exec_row]
    rcases select_cases (opcodeOf w) with ⟨hop, hsel⟩ | ⟨hop, hsel⟩ | ⟨hop, hsel⟩ | ⟨hop, hsel⟩ <;> rw [hsel]
    · exact .inl ⟨h, hop, execNop_eq _ s⟩
    · exact .inr (.inl ⟨h, hop, execAdd_eq _ s⟩)
    · exact .inr (.inr (.inl ⟨h, hop, execSub_eq _ s⟩))
    · exact .inr (.inr (.inr ⟨h, hop, runFallback_eq _ s⟩))

end Sys2Proof.Machine
end

