-- ==== Sys2Proof/Laws/Loader.lean ====
section
/-! SUPPORT. The laws of the loader: what an image leaves in memory, and what an image file holds. -/

namespace Sys2Proof.Machine

/-- An image written from an index on: memory stays canonical, the image's words read back, the others are unchanged. -/
theorem storeFrom_spec (image : List Word) (base : Nat) {m : Memory} (h : m.wf = true)
    (hl : base + image.length ≤ 2048) :
    Memory.wf (storeFrom base image m) = true ∧
      ∀ a, Memory.read (storeFrom base image m) a =
        if base ≤ a then (image[a - base]?).getD (Memory.read m a) else Memory.read m a := by
  induction image generalizing base m with
  | nil => exact ⟨h, fun a => by simp [storeFrom]⟩
  | cons w rest ih =>
    simp only [List.length_cons] at hl
    obtain ⟨hwf, hread⟩ := ih (base + 1) (Memory.wf_write (a := base) w h (by omega)) (by omega)
    refine ⟨hwf, fun a => ?_⟩
    rw [storeFrom, hread, Memory.read_write h]
    by_cases ha : base + 1 ≤ a
    · have hidx : a - base = (a - (base + 1)) + 1 := by omega
      have hne : ¬ a = base := by omega
      have hle : base ≤ a := by omega
      rw [if_pos ha, if_pos hle, if_neg hne, hidx, List.getElem?_cons_succ]
    · rw [if_neg ha]
      by_cases hb : a = base
      · subst hb; simp
      · rw [if_neg hb, if_neg (by omega)]

/-- The four bytes of a word give the word back, in either byte order. -/
theorem wordOfBytes_bytesOfWord (o : Config.ByteOrder) (w : Word) :
    ∃ b0 b1 b2 b3, bytesOfWord o w = [b0, b1, b2, b3] ∧ wordOfBytes o b0 b1 b2 b3 = w := by
  cases o <;> refine ⟨_, _, _, _, rfl, ?_⟩ <;>
    · apply BitVec.eq_of_getLsbD_eq
      intro i hi
      simp only [wordOfBytes, BitVec.getLsbD_append, extract_getLsbD]
      grind

/-- The words of a file that begins with an image are the image's and those of the rest. -/
theorem imageOfBytes_append (o : Config.ByteOrder) (image : List Word) (extra : List Byte) :
    imageOfBytes o (image.flatMap (bytesOfWord o) ++ extra) = (imageOfBytes o extra).map (image ++ ·) := by
  induction image with
  | nil => simp
  | cons w rest ih =>
    obtain ⟨b0, b1, b2, b3, hbytes, hword⟩ := wordOfBytes_bytesOfWord o w
    rw [List.flatMap_cons, hbytes]
    simp only [List.cons_append, List.nil_append, imageOfBytes]
    rw [ih, hword]
    cases imageOfBytes o extra <;> rfl

end Sys2Proof.Machine
end

