-- ==== Sys2Proof/Laws/PerInstr.lean ====
section
/-! SUPPORT. Statements made for every instruction, one lemma per constructor. -/

namespace Sys2Proof.Laws.EncodesItsRow

/-- The word of an instruction matches that instruction's row of spec/opcode_table.json. -/
def Statement (i : Instr) : Prop := i.row.matchesWord (encode i) = true

/-- The mask of every row but the sentinel's keeps the op-code alone (R67). -/
theorem layOut_masked (op : BitVec 5) (u : Unread) (f : Operands) :
    layOut op u f &&& 0xF8000000 = layOut op ⟨0, 0⟩ ⟨0, 0, 0⟩ := by
  apply BitVec.eq_of_getLsbD_eq
  intro i hi
  have hmask : (0xF8000000 : Word).getLsbD i = decide (27 ≤ i) := by
    have : ∀ i : Fin 32, (0xF8000000 : Word).getLsbD i = decide (27 ≤ i.val) := by decide
    exact this ⟨i, hi⟩
  rw [BitVec.getLsbD_and, layOut_getLsbD, layOut_getLsbD, hmask]
  grind

/-- An instruction laid out with an op-code matches the row that has the op-code as its match. -/
theorem of_opcode {op : BitVec 5} {m : String} {b : Word} (u : Unread) (f : Operands)
    (h : layOut op ⟨0, 0⟩ ⟨0, 0, 0⟩ = b) : TableRow.matchesWord ⟨m, b, 0xF8000000⟩ (layOut op u f) = true := by
  simp only [TableRow.matchesWord, layOut_masked, h, decide_true]

theorem haltSentinel : Statement .haltSentinel := by unfold Statement; decide

theorem nop (u : Unread) (f : Operands) : Statement (.nop u f) := of_opcode u f (by decide)

theorem add (u : Unread) (f : Operands) : Statement (.add u f) := of_opcode u f (by decide)

theorem sub (u : Unread) (f : Operands) : Statement (.sub u f) := of_opcode u f (by decide)

theorem rsvd3 (u : Unread) (f : Operands) : Statement (.rsvd3 u f) := of_opcode u f (by decide)

theorem rsvd4 (u : Unread) (f : Operands) : Statement (.rsvd4 u f) := of_opcode u f (by decide)

theorem rsvd5 (u : Unread) (f : Operands) : Statement (.rsvd5 u f) := of_opcode u f (by decide)

theorem rsvd6 (u : Unread) (f : Operands) : Statement (.rsvd6 u f) := of_opcode u f (by decide)

theorem rsvd7 (u : Unread) (f : Operands) : Statement (.rsvd7 u f) := of_opcode u f (by decide)

theorem rsvd8 (u : Unread) (f : Operands) : Statement (.rsvd8 u f) := of_opcode u f (by decide)

theorem rsvd9 (u : Unread) (f : Operands) : Statement (.rsvd9 u f) := of_opcode u f (by decide)

theorem rsvd10 (u : Unread) (f : Operands) : Statement (.rsvd10 u f) := of_opcode u f (by decide)

theorem rsvd11 (u : Unread) (f : Operands) : Statement (.rsvd11 u f) := of_opcode u f (by decide)

theorem rsvd12 (u : Unread) (f : Operands) : Statement (.rsvd12 u f) := of_opcode u f (by decide)

theorem rsvd13 (u : Unread) (f : Operands) : Statement (.rsvd13 u f) := of_opcode u f (by decide)

theorem rsvd14 (u : Unread) (f : Operands) : Statement (.rsvd14 u f) := of_opcode u f (by decide)

theorem rsvd15 (u : Unread) (f : Operands) : Statement (.rsvd15 u f) := of_opcode u f (by decide)

theorem rsvd16 (u : Unread) (f : Operands) : Statement (.rsvd16 u f) := of_opcode u f (by decide)

theorem rsvd17 (u : Unread) (f : Operands) : Statement (.rsvd17 u f) := of_opcode u f (by decide)

theorem rsvd18 (u : Unread) (f : Operands) : Statement (.rsvd18 u f) := of_opcode u f (by decide)

theorem rsvd19 (u : Unread) (f : Operands) : Statement (.rsvd19 u f) := of_opcode u f (by decide)

theorem rsvd20 (u : Unread) (f : Operands) : Statement (.rsvd20 u f) := of_opcode u f (by decide)

theorem rsvd21 (u : Unread) (f : Operands) : Statement (.rsvd21 u f) := of_opcode u f (by decide)

theorem rsvd22 (u : Unread) (f : Operands) : Statement (.rsvd22 u f) := of_opcode u f (by decide)

theorem rsvd23 (u : Unread) (f : Operands) : Statement (.rsvd23 u f) := of_opcode u f (by decide)

theorem rsvd24 (u : Unread) (f : Operands) : Statement (.rsvd24 u f) := of_opcode u f (by decide)

theorem rsvd25 (u : Unread) (f : Operands) : Statement (.rsvd25 u f) := of_opcode u f (by decide)

theorem rsvd26 (u : Unread) (f : Operands) : Statement (.rsvd26 u f) := of_opcode u f (by decide)

theorem rsvd27 (u : Unread) (f : Operands) : Statement (.rsvd27 u f) := of_opcode u f (by decide)

theorem rsvd28 (u : Unread) (f : Operands) : Statement (.rsvd28 u f) := of_opcode u f (by decide)

theorem rsvd29 (u : Unread) (f : Operands) : Statement (.rsvd29 u f) := of_opcode u f (by decide)

theorem rsvd30 (u : Unread) (f : Operands) : Statement (.rsvd30 u f) := of_opcode u f (by decide)

theorem rsvd31 (u : Unread) (f : Operands) : Statement (.rsvd31 u f) := of_opcode u f (by decide)

end Sys2Proof.Laws.EncodesItsRow
end

