-- ==== Sys2Proof/Laws/Ports.lean ====
section
/-! SUPPORT. The port equations one by one, in the terms of the step. -/

namespace Sys2Proof.Machine

/-- In range, `imem_addr_o` is the program counter. -/
theorem imemAddr_of_lt {pc : Word} (h : pc.toNat < 2048) : imemAddr pc = ⟨pc.toNat, h⟩ := by
  apply Fin.ext
  show (extract pc 0 11).toNat = pc.toNat
  rw [extract_toNat]; omega

/-- The operand multiplexers give `value(b)` when the read port holds the register they name. -/
theorem operand_mux (b : Byte) (s : State) :
    (if (resolve b).isReg then s.reg (resolve b).idx else zext32 b) = operandValue b s := by
  rcases byte_cases b with h | ⟨i, h⟩ | h
  · rw [operandValue, resolve_immediate h]; rfl
  · rw [operandValue, resolve_register i h]; rfl
  · rw [operandValue, resolve_overflow h]; rfl

/-- `sel_o` is the handler the multiplexer selects. -/
theorem handlerSelect_eq (instr : Word) :
    handlerSelect instr = match select (opcodeOf instr) with
      | .nop => 0
      | .add => 1
      | .sub => 2
      | .fallback => 3 := rfl

end Sys2Proof.Machine
end

