-- ==== Sys2Proof/Laws/Step.lean ====
section
/-! SUPPORT. What a step can do, said once: every later lemma about a step is a case analysis on `step_cases`. -/

namespace Sys2Proof.Machine

/-! ## Fetch -/

theorem fetchAddr_of_lt {pc : Word} (h : pc.toNat < 2048) : fetchAddr pc = some ⟨pc.toNat, h⟩ := dif_pos h

theorem fetchAddr_of_ge {pc : Word} (h : 2048 ≤ pc.toNat) : fetchAddr pc = none := dif_neg (Nat.not_lt.mpr h)

/-- In range, the fetch reads the word at the program counter (R94). -/
theorem State.fetch_of_lt {s : State} (h : s.pc.toNat < 2048) : s.fetch = some (s.memRead ⟨s.pc.toNat, h⟩) := by
  rw [State.fetch, fetchAddr_of_lt h]; rfl

/-- Out of range, there is no fetch (R53, R93). -/
theorem State.fetch_of_ge {s : State} (h : 2048 ≤ s.pc.toNat) : s.fetch = none := by
  rw [State.fetch, fetchAddr_of_ge h]; rfl

/-- A fetch is a read at a program counter in range, or there is none. -/
theorem State.fetch_cases (s : State) :
    (∃ h : s.pc.toNat < 2048, s.fetch = some (s.memRead ⟨s.pc.toNat, h⟩)) ∨ (2048 ≤ s.pc.toNat ∧ s.fetch = none) := by
  by_cases h : s.pc.toNat < 2048
  · exact .inl ⟨h, State.fetch_of_lt h⟩
  · exact .inr ⟨by omega, State.fetch_of_ge (by omega)⟩

/-! ## The step -/

theorem step_of_halted {s : State} (h : s.run = .halted) : step s = .next s := by simp only [step, stepWith, h]; rfl

theorem step_of_fetch_none {s : State} (h : s.run = .running) (hf : s.fetch = none) :
    step s = .next (s.raiseHalt .pcOutOfRange) := by simp only [step, stepWith, h, hf]; rfl

theorem step_of_fetch_some {s : State} {w : Word} (h : s.run = .running) (hf : s.fetch = some w) :
    step s = exec (decode w) s := by simp only [step, stepWith, h, hf]

/-- Everything a step can do: stand still when halted, halt on a program counter out of range or on a word that stops, or
retire one register write and advance. -/
inductive StepCase (s t : State) : Prop where
  | halted (h : s.run = .halted) (ht : t = s)
  | outOfRange (h : s.run = .running) (hpc : 2048 ≤ s.pc.toNat) (hf : s.fetch = none)
      (ht : t = s.raiseHalt .pcOutOfRange)
  | sentinel (h : s.run = .running) (hpc : s.pc.toNat < 2048) (hf : s.fetch = some 0)
      (ht : t = s.raiseHalt .haltSentinel)
  | nop (w : Word) (h : s.run = .running) (hpc : s.pc.toNat < 2048) (hf : s.fetch = some w) (hw : w ≠ 0)
      (hop : (opcodeOf w).toNat = 0) (ht : t = s.raiseHalt .haltNop)
  | unknown (w : Word) (h : s.run = .running) (hpc : s.pc.toNat < 2048) (hf : s.fetch = some w) (hw : w ≠ 0)
      (hop : 3 ≤ (opcodeOf w).toNat) (ht : t = s.raiseHalt .unknownOpcode)
  | add (w : Word) (h : s.run = .running) (hpc : s.pc.toNat < 2048) (hf : s.fetch = some w) (hw : w ≠ 0)
      (hop : (opcodeOf w).toNat = 1)
      (ht : t = s.retire (operandsOf w).rd (operandValue (operandsOf w).op2 s + operandValue (operandsOf w).op3 s))
  | sub (w : Word) (h : s.run = .running) (hpc : s.pc.toNat < 2048) (hf : s.fetch = some w) (hw : w ≠ 0)
      (hop : (opcodeOf w).toNat = 2)
      (ht : t = s.retire (operandsOf w).rd (operandValue (operandsOf w).op2 s - operandValue (operandsOf w).op3 s))

/-- A step answers a next state, and it is one of those of `StepCase`. -/
theorem step_spec (s : State) : ∃ t, step s = .next t ∧ StepCase s t := by
  cases hr : s.run with
  | halted => exact ⟨s, step_of_halted hr, .halted hr rfl⟩
  | running =>
    rcases s.fetch_cases with ⟨hpc, hf⟩ | ⟨hpc, hf⟩
    · rw [step_of_fetch_some hr hf]
      generalize s.memRead ⟨s.pc.toNat, hpc⟩ = w at hf
      rcases exec_decode_cases w s with ⟨rfl, he⟩ | ⟨hw, hop, he⟩ | ⟨hw, hop, he⟩ | ⟨hw, hop, he⟩ | ⟨hw, hop, he⟩
      · exact ⟨_, he, .sentinel hr hpc hf rfl⟩
      · exact ⟨_, he, .nop w hr hpc hf hw hop rfl⟩
      · exact ⟨_, he, .add w hr hpc hf hw hop rfl⟩
      · exact ⟨_, he, .sub w hr hpc hf hw hop rfl⟩
      · exact ⟨_, he, .unknown w hr hpc hf hw hop rfl⟩
    · exact ⟨_, step_of_fetch_none hr hf, .outOfRange hr hpc hf rfl⟩

/-- The inversion of a step. -/
theorem step_cases {s t : State} (h : step s = .next t) : StepCase s t := by
  obtain ⟨t', ht', hc⟩ := step_spec s
  rw [h] at ht'
  cases ht'
  exact hc

end Sys2Proof.Machine
end

