-- ==== Sys2Proof/Laws/Run.lean ====
section
/-! SUPPORT. The laws of runs: how `runFor` unfolds, and the one induction over a run. -/

namespace Sys2Proof.Machine

@[simp] theorem RunRecord.afterStep_state (t : State) (r : RunRecord) : (r.afterStep t).state = r.state := rfl
@[simp] theorem RunRecord.afterStep_steps (t : State) (r : RunRecord) : (r.afterStep t).steps = r.steps + 1 := rfl
theorem RunRecord.afterStep_retired (t : State) (r : RunRecord) :
    (r.afterStep t).retired = if t.run = .running then r.retired + 1 else r.retired := rfl

theorem runFor_zero (s : State) : runFor 0 s = ⟨s, 0, 0⟩ := rfl

theorem runFor_of_halted {s : State} (h : s.run = .halted) (k : Nat) : runFor k s = ⟨s, 0, 0⟩ := by
  cases k with
  | zero => rfl
  | succ k => simp only [runFor, h]

theorem runFor_succ {s t : State} (h : s.run = .running) (ht : step s = .next t) (k : Nat) :
    runFor (k + 1) s = (runFor k t).afterStep t := by simp only [runFor, h, ht]

/-- What every step keeps, a run keeps: the induction over runs, once. -/
theorem runFor_induction {P : State → Prop} (hstep : ∀ s t, P s → step s = .next t → P t) (k : Nat) {s : State}
    (h : P s) : P (runFor k s).state := by
  induction k generalizing s with
  | zero => exact h
  | succ k ih =>
    cases hr : s.run with
    | halted => rw [runFor_of_halted hr]; exact h
    | running =>
      obtain ⟨t, ht, -⟩ := step_spec s
      rw [runFor_succ hr ht]
      exact ih (hstep s t h ht)

/-- A run that has ended is not changed by more fuel (R26). -/
theorem runFor_add_of_ended {j : Nat} {s : State} (h : (runFor j s).state.run = .halted) (k : Nat) :
    runFor (j + k) s = runFor j s := by
  induction j generalizing s with
  | zero =>
    rw [runFor_zero] at h ⊢
    rw [Nat.zero_add, runFor_of_halted h]
  | succ j ih =>
    cases hr : s.run with
    | halted => rw [runFor_of_halted hr, runFor_of_halted hr]
    | running =>
      obtain ⟨t, ht, -⟩ := step_spec s
      rw [runFor_succ hr ht] at h
      rw [show j + 1 + k = (j + k) + 1 by omega, runFor_succ hr ht, runFor_succ hr ht, ih h]

end Sys2Proof.Machine
end

