-- ==== Sys2Proof/Tests/Slice0.lean ====
section
/-! SUPPORT. The model's own tests. Every expected value is from 95_test_vectors.md or is worked out by hand from the rule
the test's comment names. The last part shows, for every statement with hypotheses, a state and operands that meet them. -/

namespace Sys2Proof.Tests

open Sys2Proof.Machine

/-- The next state of an outcome, if it is one. -/
def nextOf (o : Result) : Option State :=
  match o with
  | .next t => some t
  | .fault _ => none
  | .refused _ => none

/-- Reset with one word at `M[0]` and one register set. -/
def withWord (w : Word) (i : RegIdx) (v : Word) : State := (State.reset.setReg i v).memWrite 0 w

/-- One step, seen through one register, the program counter, `run` and `cause`. -/
def seen (s : State) (i : RegIdx) : Option (Word × Word × RunState × HaltCause) :=
  (nextOf (step s)).map fun t => (t.reg i, t.pc, t.run, t.cause)

/-! ## Well-formedness -/

/-- A NOP whose every field is 0 would be the sentinel's word (R68). -/
theorem test_nop_of_zero_fields_is_ill_formed : (Instr.nop ⟨0, 0⟩ ⟨0, 0, 0⟩).wellFormed = false := by decide

theorem test_nop_with_a_field_is_well_formed : (Instr.nop ⟨1, 0⟩ ⟨0, 0, 0⟩).wellFormed = true := by decide

/-! ## Decoding: every row of the table, from words written out field by field (R60) -/

theorem test_decode_sentinel : decode 0b00000_00000_00_0000_00000000_00000000 = .haltSentinel := by decide

theorem test_decode_nop :
    decode 0b00000_00000_00_0001_00000010_00000011 = .nop ⟨0, 0⟩ ⟨1, 0x02, 0x03⟩ := by decide

theorem test_decode_nop_by_cond_alone :
    decode 0b00000_00001_00_0000_00000000_00000000 = .nop ⟨1, 0⟩ ⟨0, 0, 0⟩ := by decide

theorem test_decode_add :
    decode 0b00001_11111_11_0111_00000101_10010000 = .add ⟨31, 3⟩ ⟨7, 0x05, 0x90⟩ := by decide

theorem test_decode_sub :
    decode 0b00010_00000_00_1111_10001111_00000010 = .sub ⟨0, 0⟩ ⟨15, 0x8F, 0x02⟩ := by decide

theorem test_decode_rsvd3_to_rsvd11 :
    decode 0b00011_10100_01_1100_00011000_00100101 = .rsvd3 ⟨20, 1⟩ ⟨12, 0x18, 0x25⟩ ∧
    decode 0b00100_00110_10_0001_01101101_00010011 = .rsvd4 ⟨6, 2⟩ ⟨1, 0x6D, 0x13⟩ ∧
    decode 0b00101_00101_11_1101_00100011_01111011 = .rsvd5 ⟨5, 3⟩ ⟨13, 0x23, 0x7B⟩ ∧
    decode 0b00110_00101_11_0001_00111111_01110010 = .rsvd6 ⟨5, 3⟩ ⟨1, 0x3F, 0x72⟩ ∧
    decode 0b00111_00011_11_0001_01110001_00010111 = .rsvd7 ⟨3, 3⟩ ⟨1, 0x71, 0x17⟩ ∧
    decode 0b01000_01000_10_1101_01001001_00111100 = .rsvd8 ⟨8, 2⟩ ⟨13, 0x49, 0x3C⟩ ∧
    decode 0b01001_10011_01_0011_01100000_10111110 = .rsvd9 ⟨19, 1⟩ ⟨3, 0x60, 0xBE⟩ ∧
    decode 0b01010_00110_00_0001_01101001_11111110 = .rsvd10 ⟨6, 0⟩ ⟨1, 0x69, 0xFE⟩ ∧
    decode 0b01011_11011_10_1110_11101000_10111001 = .rsvd11 ⟨27, 2⟩ ⟨14, 0xE8, 0xB9⟩ := by decide

theorem test_decode_rsvd12_to_rsvd21 :
    decode 0b01100_10011_01_0101_01111100_00101001 = .rsvd12 ⟨19, 1⟩ ⟨5, 0x7C, 0x29⟩ ∧
    decode 0b01101_10011_11_1010_11100101_10010011 = .rsvd13 ⟨19, 3⟩ ⟨10, 0xE5, 0x93⟩ ∧
    decode 0b01110_00100_00_1101_01010100_10101111 = .rsvd14 ⟨4, 0⟩ ⟨13, 0x54, 0xAF⟩ ∧
    decode 0b01111_01001_11_1101_00010100_00100111 = .rsvd15 ⟨9, 3⟩ ⟨13, 0x14, 0x27⟩ ∧
    decode 0b10000_10100_10_1011_11111110_11101001 = .rsvd16 ⟨20, 2⟩ ⟨11, 0xFE, 0xE9⟩ ∧
    decode 0b10001_00100_00_1000_11110010_00100001 = .rsvd17 ⟨4, 0⟩ ⟨8, 0xF2, 0x21⟩ ∧
    decode 0b10010_00011_10_1110_10010001_11000101 = .rsvd18 ⟨3, 2⟩ ⟨14, 0x91, 0xC5⟩ ∧
    decode 0b10011_10110_00_1110_10110101_01010110 = .rsvd19 ⟨22, 0⟩ ⟨14, 0xB5, 0x56⟩ ∧
    decode 0b10100_00111_11_0001_01101111_10010011 = .rsvd20 ⟨7, 3⟩ ⟨1, 0x6F, 0x93⟩ ∧
    decode 0b10101_01000_01_1100_11001000_11111110 = .rsvd21 ⟨8, 1⟩ ⟨12, 0xC8, 0xFE⟩ := by decide

theorem test_decode_rsvd22_to_rsvd31 :
    decode 0b10110_00101_01_1110_11001101_10001110 = .rsvd22 ⟨5, 1⟩ ⟨14, 0xCD, 0x8E⟩ ∧
    decode 0b10111_01000_11_1000_11010100_10110111 = .rsvd23 ⟨8, 3⟩ ⟨8, 0xD4, 0xB7⟩ ∧
    decode 0b11000_11000_01_0100_00101010_01011010 = .rsvd24 ⟨24, 1⟩ ⟨4, 0x2A, 0x5A⟩ ∧
    decode 0b11001_01001_01_0111_00000110_11111000 = .rsvd25 ⟨9, 1⟩ ⟨7, 0x06, 0xF8⟩ ∧
    decode 0b11010_01011_10_1001_00000010_01001010 = .rsvd26 ⟨11, 2⟩ ⟨9, 0x02, 0x4A⟩ ∧
    decode 0b11011_11010_10_1010_01000000_00011011 = .rsvd27 ⟨26, 2⟩ ⟨10, 0x40, 0x1B⟩ ∧
    decode 0b11100_11101_11_1100_11001100_11001001 = .rsvd28 ⟨29, 3⟩ ⟨12, 0xCC, 0xC9⟩ ∧
    decode 0b11101_00110_11_1100_00011111_01100001 = .rsvd29 ⟨6, 3⟩ ⟨12, 0x1F, 0x61⟩ ∧
    decode 0b11110_00100_01_1110_01010011_00111000 = .rsvd30 ⟨4, 1⟩ ⟨14, 0x53, 0x38⟩ ∧
    decode 0b11111_10101_00_0011_00000000_01001101 = .rsvd31 ⟨21, 0⟩ ⟨3, 0x00, 0x4D⟩ := by decide

/-- A shorter bit count leaves the bits above it 0, and no instruction is longer than a word (R70). -/
theorem test_decode_table_word :
    decodeTableWord 32 0x10000205 = some (.sub ⟨0, 0⟩ ⟨0, 0x02, 0x05⟩) ∧ decodeTableWord 8 0x18000000 = some .haltSentinel ∧
      decodeTableWord 40 0 = none := by decide

/-- 95_test_vectors.md section 2.1. -/
theorem test_extract :
    extract (0x12345678 : Word) 4 8 = 0x67 ∧ extract (0x80000000 : Word) 31 1 = 1 ∧
      extract (0xFFFFFFFF : Word) 22 5 = 31 ∧ extract (0x0FF70590 : Word) 16 4 = 7 := by decide

/-- R71 on the word of `P3` that is not canonical, and on words that are. -/
theorem test_canonical :
    canonical 0x0FF70590 = false ∧ canonical 0x18000000 = false ∧ canonical 0x08000090 = false ∧
      canonical 0x0800008F = true ∧ canonical 0x00000000 = true := by decide

/-! ## The operand-mode resolver: 95_test_vectors.md section 2.2, with `x[i] = 0x100 + i` -/

/-- The register file of section 2.2. -/
def numbered : State := { State.reset with regs := Vector.ofFn fun i : Fin 16 => BitVec.ofNat 32 (0x100 + i.val) }

theorem test_immediate_bytes :
    operandValue 0x00 numbered = 0 ∧ operandValue 0x05 numbered = 5 ∧ operandValue 0x7F numbered = 0x7F := by decide

theorem test_register_bytes :
    operandValue 0x80 numbered = 0x100 ∧ operandValue 0x85 numbered = 0x105 ∧ operandValue 0x8F numbered = 0x10F ∧
      operandValue 0x90 numbered = 0x100 ∧ operandValue 0xC8 numbered = 0x100 ∧ operandValue 0xFF numbered = 0x100 := by
  decide

/-! ## One step: 95_test_vectors.md sections 2.4 to 2.7 -/

/-- `RESET_PC` (R8, R32). -/
theorem test_reset_program_counter : State.reset.pc = Config.resetPc := by decide

theorem test_sentinel_halts : seen State.reset 0 = some (0, 0, .halted, .haltSentinel) := by decide

theorem test_nop_halts_in_place : seen (withWord 0x00010203 1 0) 1 = some (0, 0, .halted, .haltNop) := by decide

/-- Op-code 0 with every other bit 1. -/
theorem test_nop_with_all_fields : seen (withWord 0x07FFFFFF 15 0) 15 = some (0, 0, .halted, .haltNop) := by decide

theorem test_unknown_opcode_halts_in_place :
    seen (withWord 0x18000000 1 9) 1 = some (9, 0, .halted, .unknownOpcode) ∧
      seen (withWord 0xF8000000 1 9) 1 = some (9, 0, .halted, .unknownOpcode) := by decide

/-- `ADD 2 r1 1` on `0xFFFFFFFF` wraps. -/
theorem test_add_wraps : seen (withWord 0x08028101 1 0xFFFFFFFF) 2 = some (0, 1, .running, .none) := by decide

/-- `ADD 1 r1 r1` reads the old value. -/
theorem test_add_source_is_destination : seen (withWord 0x08018181 1 7) 1 = some (14, 1, .running, .none) := by decide

/-- `SUB 2 r1 1` on `0x80000000`: signed overflow wraps. -/
theorem test_sub_signed_overflow :
    seen (withWord 0x10028101 1 0x80000000) 2 = some (0x7FFFFFFF, 1, .running, .none) := by decide

/-- `SUB 0 2 5` is operand 2 less operand 3. -/
theorem test_sub_operand_order : seen (withWord 0x10000205 1 0) 0 = some (0xFFFFFFFD, 1, .running, .none) := by decide

/-- `ADD 15 r15 2` at 10 goes to 13; `SUB 15 0 1` at 3 goes to 0. -/
theorem test_transfer_of_control :
    seen ((State.reset.setPc 10).memWrite 10 0x080F8F02) 15 = some (13, 13, .running, .none) ∧
      seen ((State.reset.setPc 3).memWrite 3 0x100F0001) 15 = some (0, 0, .running, .none) := by decide

/-- `x[15] = 2048` and `x[15] = 0xFFFFFFFF` halt where they are. -/
theorem test_program_counter_out_of_range :
    seen (State.reset.setPc 2048) 15 = some (2048, 2048, .halted, .pcOutOfRange) ∧
      seen (State.reset.setPc 0xFFFFFFFF) 15 = some (0xFFFFFFFF, 0xFFFFFFFF, .halted, .pcOutOfRange) := by decide

/-- `x[15] = 2047` fetches `M[2047]`. -/
theorem test_last_word_is_fetched :
    seen ((State.reset.setPc 2047).memWrite 2047 0x08010001) 1 = some (1, 2048, .running, .none) := by decide

/-- `ADD 1 0 1` with cond = 1 and with rsv = 3. -/
theorem test_reserved_bits_ignored :
    seen (withWord 0x08410001 1 0) 1 = some (1, 1, .running, .none) ∧
      seen (withWord 0x08310001 1 0) 1 = some (1, 1, .running, .none) := by decide

/-- The ports on `ADD 15 0 4` at index 0 (R90): `waddr_o`, `wdata_o`, `pc_next_o`, `halt_o`. -/
theorem test_ports_of_a_jump :
    (let o := block (blockInputs (withWord 0x080F0004 1 0))
     (o.we, o.waddr, o.wdata, o.pcNext, o.halt)) = (true, 15, 4, 5, false) := by decide

/-- The word the host places is fetched next. -/
theorem test_with_fetch_word :
    seen (State.reset.withFetchWord 32 0x0801007F) 1 = some (127, 1, .running, .none) ∧
      seen ((State.reset.raiseHalt .haltNop).withFetchWord 32 0x0801007F) 1 = some (127, 1, .running, .none) := by decide

/-! ## Memory and the loader -/

/-- Writing the reset value takes the entry out, so equal memories are equal lists. -/
theorem test_memory_is_canonical :
    ((State.reset.memWrite 5 7).memWrite 2 9).mem = [(2, 9), (5, 7)] ∧
      (((State.reset.memWrite 5 7).memWrite 2 9).memWrite 5 0).mem = [(2, 9)] := by decide

theorem test_image_file_byte_orders :
    imageOfBytes .littleEndian [0x03, 0x02, 0x01, 0x08] = some [0x08010203] ∧
      imageOfBytes .bigEndian [0x08, 0x01, 0x02, 0x03] = some [0x08010203] ∧ imageOfBytes .bigEndian [0x08] = none := by
  decide

/-! ## The reference encoder: 95_test_vectors.md section 2.3 -/

/-- The spec's examples take `r` as `REG_MARKER`. -/
def spelledWithR : Config.Params := ⟨'r', .bigEndian, none⟩

theorem test_assemble_literals :
    assemble spelledWithR "ADD 1 2 3".toList = 0x08010203 ∧ assemble spelledWithR "SUB 15 0 1".toList = 0x100F0001 ∧
      assemble spelledWithR "ADD 0 0 255".toList = 0x080000FF ∧ assemble spelledWithR "ADD 0 0 300".toList = 0x08000000 ∧
      assemble spelledWithR "ADD 1 007 3".toList = 0x08010703 := by decide

theorem test_assemble_registers :
    assemble spelledWithR "ADD 1 r1 r01".toList = 0x08018181 ∧ assemble spelledWithR "ADD 0 0 r16".toList = 0x08000000 ∧
      assemble spelledWithR "ADD r3 1 1".toList = 0x08030101 ∧ assemble spelledWithR "ADD r20 1 1".toList = 0x08000101 ∧
      assemble spelledWithR "ADD 1 R1 3".toList = 0x08010003 := by decide

theorem test_assemble_fallbacks :
    assemble spelledWithR "FOO 1 2 3".toList = 0x00010203 ∧ assemble spelledWithR "add 1 2 3".toList = 0x00010203 ∧
      assemble spelledWithR "".toList = 0 ∧ assemble spelledWithR "ADD 1 -2 3".toList = 0x08010003 ∧
      assemble spelledWithR "ADD 1 r 3".toList = 0x08010003 ∧ assemble spelledWithR "ADD 20 1 1".toList = 0x08040101 := by
  decide

theorem test_assemble_missing_and_extra_operands :
    assemble spelledWithR "ADD".toList = 0x08000000 ∧ assemble spelledWithR "ADD 5 7".toList = 0x08050700 ∧
      assemble spelledWithR " ADD\t1  2 3 4 ".toList = 0x08010203 := by decide

/-! ## Witnesses: a state and operands that meet each statement's hypotheses -/

/-- A running state with a word in memory, canonical. -/
theorem witness_MemoryReadsBackWritesAndIsCanonical :
    (withWord 0x08010203 1 0).mem.wf = true ∧ State.reset.mem.wf = true ∧
      ∀ a, (State.reset.raiseHalt .haltNop).memRead a = State.reset.memRead a := ⟨by decide, by decide, fun _ => rfl⟩

theorem witness_LoaderWritesImageOverZeroMemory : (List.replicate 2048 (1 : Word)).length ≤ 2048 := by
  rw [List.length_replicate]

theorem witness_LoaderRefusesImageLongerThanMemory :
    2048 < (List.replicate 2049 (1 : Word)).length ∧ (List.replicate 2048 (1 : Word)).length ≤ 2048 := by
  rw [List.length_replicate, List.length_replicate]; omega

theorem witness_ImageFileLoadsItsWords : 0 < [(1 : Byte), 2, 3].length ∧ [(1 : Byte), 2, 3].length < 4 := by decide

theorem witness_DecodedFieldsAreTheirBits :
    27 + 5 ≤ 32 ∧ (opcodeOf 0x08000000).toNat = 1 ∧ (opcodeOf 0x17FFFFFF).toNat = 2 ∧
      ((opcodeOf 0x00000001).toNat = 0 ∧ (0x00000001 : Word) ≠ 0) := by decide

theorem witness_DecodeOfEncodeIsTheInstruction :
    Instr.haltSentinel.WellFormed ∧ (Instr.nop ⟨0, 0⟩ ⟨0, 0, 1⟩).WellFormed ∧
      (Instr.rsvd31 ⟨31, 3⟩ ⟨15, 0xFF, 0xFF⟩).WellFormed := by decide

theorem witness_WordMatchesOnlyItsTableRow :
    (Instr.nop ⟨0, 0⟩ ⟨0, 0, 1⟩).row.matchesWord 0 = true ∧ (Instr.add ⟨0, 0⟩ ⟨0, 0, 0⟩).row.matchesWord 0x0FFFFFFF = true := by
  decide

theorem witness_ReservedBitsHaveNoEffect :
    (0x0FF70590 : Word) &&& 0xF80FFFFF ≠ 0 ∧ (0x00400000 : Word) ≠ 0 ∧ (0x00400000 : Word) &&& 0xF80FFFFF = 0 := by decide

theorem witness_ImmediateOperandsAreZeroTo127 : (0x7F : Byte).toNat < 128 ∧ ¬ (0x80 : Byte).toNat < 128 := by decide

theorem witness_RegisterOperandsReadTheirRegister :
    (0x80 : Byte).toNat = 128 + (0 : RegIdx).val ∧ (0x8F : Byte).toNat = 128 + (15 : RegIdx).val ∧
      144 ≤ (0x90 : Byte).toNat ∧ 144 ≤ (0xFF : Byte).toNat := by decide

theorem witness_OpcodeIndexesThreeHandlers :
    (0 : BitVec 5).toNat = 0 ∧ (1 : BitVec 5).toNat = 1 ∧ (2 : BitVec 5).toNat = 2 ∧
      Config.numHandlers ≤ (3 : BitVec 5).toNat ∧ Config.numHandlers ≤ (31 : BitVec 5).toNat := by decide

theorem witness_HandlersWriteAtMostTheirDestination :
    (0 : RegIdx) ≠ (⟨15, 0, 0⟩ : Operands).rd ∧ (callHandler .fallback ⟨0, 0, 0⟩ State.reset).continues = false ∧
      (callHandler .sub ⟨0, 0, 0⟩ State.reset).continues = true ∧
      (State.reset.memWrite 1 5).regs = State.reset.regs := by decide

/-- Both kinds of destination, and a register that is neither. -/
theorem witness_AddWritesSumThenAdvances :
    (⟨14, 0x8E, 1⟩ : Operands).rd ≠ 15 ∧ (⟨15, 0x8F, 1⟩ : Operands).rd = 15 ∧
      ((0 : RegIdx) ≠ (⟨14, 0x8E, 1⟩ : Operands).rd ∧ (0 : RegIdx) ≠ 15) := by decide

/-- Both kinds of destination, and a register that is neither. -/
theorem witness_SubWritesDifferenceThenAdvances :
    (⟨0, 0x80, 1⟩ : Operands).rd ≠ 15 ∧ (⟨15, 0x8F, 1⟩ : Operands).rd = 15 ∧
      ((14 : RegIdx) ≠ (⟨0, 0x80, 1⟩ : Operands).rd ∧ (14 : RegIdx) ≠ 15) := by decide

theorem witness_HaltingInstructionsChangeOnlyRunAndCause :
    Instr.rsvd3 ⟨0, 0⟩ ⟨0, 0, 0⟩ ∈ [Instr.rsvd3 ⟨0, 0⟩ ⟨0, 0, 0⟩] := by decide

theorem witness_WritingRegister15TransfersControl : (0x7F : Byte).toNat < 128 ∧ (14 : RegIdx) ≠ 15 := by decide

theorem witness_SetMoveAndClearIdioms : (14 : RegIdx) ≠ 15 ∧ (0x7F : Byte).toNat < 128 := by decide

/-- `ADD 15 r1 0` with `x[1] = 2047`, the smallest target out of range, and `SUB 15 0 2` (95_test_vectors.md), the largest. -/
theorem witness_OutOfRangeTargetHaltsAtNextStep :
    (State.reset.setReg 1 2047).run = .running ∧ (⟨15, 0x81, 0⟩ : Operands).rd = 15 ∧
      2048 ≤ (operandValue 0x81 (State.reset.setReg 1 2047) + operandValue 0 (State.reset.setReg 1 2047) + 1).toNat ∧
      State.reset.run = .running ∧ (⟨15, 0, 2⟩ : Operands).rd = 15 ∧
      2048 ≤ (operandValue 0 State.reset - operandValue 2 State.reset + 1).toNat := by
  decide

/-- The last word of memory. -/
theorem witness_StepRunsTheDecodedInstruction :
    ∃ h : ((State.reset.setPc 2047).memWrite 2047 0x08010001).pc.toNat < 2048,
      ((State.reset.setPc 2047).memWrite 2047 0x08010001).run = .running ∧ (Instr.add ⟨0, 0⟩ ⟨1, 0, 1⟩).WellFormed ∧
      ((State.reset.setPc 2047).memWrite 2047 0x08010001).memRead
        ⟨((State.reset.setPc 2047).memWrite 2047 0x08010001).pc.toNat, h⟩ = encode (.add ⟨0, 0⟩ ⟨1, 0, 1⟩) :=
  ⟨by decide, by decide, by decide, by decide⟩

theorem witness_PlacedWordIsExecutedNext :
    State.reset.mem.wf = true ∧ State.reset.pc.toNat < 2048 ∧ State.reset.run = .running := by decide

theorem witness_StepIsTheSpecPseudocode : State.reset.run = .running := by decide

theorem witness_ProgramCounterOutOfRangeHalts :
    (State.reset.setPc 2048).run = .running ∧ 2048 ≤ (State.reset.setPc 2048).pc.toNat := by decide

/-- A step for each of the five clauses: out of range, sentinel, NOP, the lowest op-code without a handler, ADD. -/
theorem witness_HaltChecksAreMadeInOrder :
    ((State.reset.setPc 2048).run = .running ∧ (∃ t, step (State.reset.setPc 2048) = .next t) ∧
      2048 ≤ (State.reset.setPc 2048).pc.toNat) ∧
    (State.reset.run = .running ∧ (∃ t, step State.reset = .next t) ∧ State.reset.memRead 0 = 0) ∧
    ((∃ t, step (withWord 1 1 0) = .next t) ∧ (withWord 1 1 0).memRead 0 ≠ 0 ∧
      (opcodeOf ((withWord 1 1 0).memRead 0)).toNat = 0) ∧
    ((∃ t, step (withWord 0x18000000 1 0) = .next t) ∧ 3 ≤ (opcodeOf ((withWord 0x18000000 1 0).memRead 0)).toNat) ∧
    ((∃ t, step (withWord 0x08000000 1 0) = .next t) ∧ (opcodeOf ((withWord 0x08000000 1 0).memRead 0)).toNat = 1) :=
  ⟨⟨by decide, ⟨_, rfl⟩, by decide⟩, ⟨by decide, ⟨_, rfl⟩, by decide⟩, ⟨⟨_, rfl⟩, by decide, by decide⟩,
    ⟨⟨_, rfl⟩, by decide⟩, ⟨_, rfl⟩, by decide⟩

theorem witness_HaltingIsPrecise :
    ∃ t, (withWord 0x18000000 1 9).run = .running ∧ step (withWord 0x18000000 1 9) = .next t ∧ t.run = .halted :=
  ⟨_, by decide, rfl, by decide⟩

theorem witness_HaltedBlockNeverChanges : (State.reset.raiseHalt .haltNop).run = .halted := by decide

/-- A step that writes a register, and one that fetches nothing. -/
theorem witness_StepWritesAtMostTwoRegisters :
    (∃ t, step (withWord 0x08010203 1 0) = .next t) ∧ (withWord 0x08010203 1 0).fetch = some 0x08010203 ∧
      ((0 : RegIdx) ≠ (operandsOf 0x08010203).rd ∧ (0 : RegIdx) ≠ 15) ∧
      (∃ t, step (State.reset.setPc 2048) = .next t) ∧ (State.reset.setPc 2048).fetch = none :=
  ⟨⟨_, rfl⟩, by decide, by decide, ⟨_, rfl⟩, by decide⟩

/-- Two states that differ in a word not fetched. -/
theorem witness_StepIsTotalAndReadsOnlyTheFetchedWord :
    ∃ s' t', State.reset.regs = (State.reset.memWrite 1 5).regs ∧ State.reset.run = (State.reset.memWrite 1 5).run ∧
      State.reset.cause = (State.reset.memWrite 1 5).cause ∧ State.reset.fetch = (State.reset.memWrite 1 5).fetch ∧
      step State.reset = .next s' ∧ step (State.reset.memWrite 1 5) = .next t' :=
  ⟨_, _, rfl, rfl, rfl, by decide, rfl, rfl⟩

/-- Reset meets the invariant, and so does a state with a word in memory. -/
theorem witness_EveryStepKeepsTheInvariant :
    ∃ t, (withWord 0x08010203 1 0).Inv ∧ step (withWord 0x08010203 1 0) = .next t :=
  ⟨_, ⟨by decide, by decide⟩, rfl⟩

/-- A run that ends and one that has not. -/
theorem witness_EndedRunHasOneStepMoreThanRetired :
    State.reset.run = .running ∧ (runFor 1 State.reset).state.run = .halted ∧
      (runFor 1 (withWord 0x08000000 1 0)).state.run = .running := by decide

theorem witness_StepCapCutsButDoesNotEndARun : (runFor 1 (withWord 0x08000000 1 0)).state.run = .running := by decide

/-- With a step cap of 1 and with none. -/
theorem witness_EndOfARunIsUniqueAndOutputsRegistersAndCause :
    State.reset.Inv ∧ EndsWith ⟨'r', .bigEndian, some 1⟩ State.reset (runFor 1 State.reset) ∧
      EndsWith ⟨'r', .bigEndian, none⟩ State.reset (runFor 1 State.reset) :=
  ⟨⟨by decide, by decide⟩, ⟨1, by simp, rfl, by decide⟩, ⟨1, by simp, rfl, by decide⟩⟩

theorem witness_SafeEndedRunEndedNormally :
    State.reset.Inv ∧ EndsWith ⟨'r', .bigEndian, none⟩ State.reset (runFor 1 State.reset) ∧
      (runFor 1 State.reset).state.Safe :=
  ⟨⟨by decide, by decide⟩, ⟨1, by simp, rfl, by decide⟩, by unfold State.Safe; decide⟩

/-- `SUB 15 r15 1` at index 7. -/
theorem witness_SelfLoopRunsForever :
    ∃ h : ((State.reset.setPc 7).memWrite 7 0x100F8F01).pc.toNat < 2048,
      ((State.reset.setPc 7).memWrite 7 0x100F8F01).run = .running ∧
      ((State.reset.setPc 7).memWrite 7 0x100F8F01).memRead ⟨((State.reset.setPc 7).memWrite 7 0x100F8F01).pc.toNat, h⟩ =
        encode (.sub ⟨0, 0⟩ ⟨15, 0x8F, 0x01⟩) := ⟨by decide, by decide, by decide⟩

/-- One word, retired, and the empty image. -/
theorem witness_RunningPastTheImageHalts :
    (∃ b, boot [0x08000000] = .next b ∧ (runFor 1 b).state.run = .running ∧ (runFor 1 b).state.pc.toNat = 1) ∧
    (∃ b, boot [] = .next b ∧ (runFor 0 b).state.run = .running ∧ (runFor 0 b).state.pc.toNat = 0) :=
  ⟨⟨_, rfl, by decide, by decide⟩, ⟨_, rfl, by decide, by decide⟩⟩

/-- Six words and `n` words of 0: the six reach the program counter 2048 by way of `x[1] = 2032`. -/
def paddedImage (n : Nat) : List Word :=
  [0x0801007F, 0x08018181, 0x08018181, 0x08018181, 0x08018181, 0x080F810F] ++ List.replicate n 0

theorem paddedImage_length (n : Nat) : (paddedImage n).length = 6 + n := by
  rw [paddedImage, List.length_append, List.length_replicate]
  rfl

/-- The memory those six words make. -/
def sixWords : Memory :=
  [(0, 0x0801007F), (1, 0x08018181), (2, 0x08018181), (3, 0x08018181), (4, 0x08018181), (5, 0x080F810F)]

/-- The words of 0 behind them add nothing to it. -/
theorem storeFrom_zeros (n base : Nat) (h : 6 ≤ base) : storeFrom base (List.replicate n 0) sixWords = sixWords := by
  induction n generalizing base with
  | zero => rfl
  | succ n ih =>
    have hwrite : Memory.write sixWords base 0 = sixWords := by
      simp only [sixWords, Memory.write, Memory.cons, Memory.unlisted]
      grind
    rw [List.replicate_succ, storeFrom, hwrite]
    exact ih (base + 1) (by omega)

theorem boot_paddedImage (n : Nat) (h : 6 + n ≤ 2048) :
    boot (paddedImage n) = .next { State.reset with mem := sixWords } := by
  have hmem : storeFrom 0 (paddedImage n) [] = sixWords := storeFrom_zeros n 6 (Nat.le_refl 6)
  rw [← hmem]
  exact if_neg (by rw [paddedImage_length]; exact Nat.not_lt.mpr h)

/-- An image that fills memory. -/
theorem witness_RunningPastTheImageHalts_full_memory :
    ∃ b, boot (paddedImage 2042) = .next b ∧ (runFor 6 b).state.run = .running ∧
      (runFor 6 b).state.pc.toNat = (paddedImage 2042).length :=
  ⟨_, boot_paddedImage 2042 (by decide), by decide, by rw [paddedImage_length]; decide⟩

/-- Lines of one, two and three tokens: one that begins with `ADD`, one with `SUB` and one with neither. -/
theorem witness_AssembledFieldsAreTheLinesFields :
    ([['A', 'D', 'D']][0]? = some ['A', 'D', 'D'] ∧ [['A', 'D', 'D']].length ≤ 1) ∧
      ([['S', 'U', 'B'], ['5']][0]? = some ['S', 'U', 'B'] ∧ [['S', 'U', 'B'], ['5']].length ≤ 2) ∧
      ([['F', 'O', 'O'], ['5'], ['7']][0]? ≠ some ['A', 'D', 'D'] ∧ [['F', 'O', 'O'], ['5'], ['7']][0]? ≠ some ['S', 'U', 'B'] ∧
        [['F', 'O', 'O'], ['5'], ['7']].length ≤ 3) := by
  decide

/-- The boundaries 255 and 256 of literals, 15 and 16 of registers, and a malformed token. -/
theorem witness_OperandTokensGiveTheirFields :
    parseUnsigned ['2', '5', '5'] = some 255 ∧ parseUnsigned ['2', '5', '6'] = some 256 ∧
      (parseUnsigned ['r', '1', '5'] = none ∧ parseUnsigned ['1', '5'] = some 15) ∧
      (parseUnsigned ['r', '1', '6'] = none ∧ parseUnsigned ['1', '6'] = some 16) ∧
      (parseUnsigned ['-', '2'] = none ∧ ∀ digits, ['-', '2'] ≠ 'r' :: digits) := by
  refine ⟨by decide, by decide, by decide, by decide, by decide, fun _ h => ?_⟩
  exact absurd (List.cons.inj h).1 (by decide)

theorem witness_SmallLiteralLinesAssembleToCanonicalWords :
    ∀ t ∈ tokens ['A', 'D', 'D', ' ', '1', '2', '7', ' ', 'r', '9'], ∀ v, parseUnsigned t = some v → v < 128 := by
  have h : (tokens ['A', 'D', 'D', ' ', '1', '2', '7', ' ', 'r', '9']).all
      (fun t => (parseUnsigned t).all (fun v => decide (v < 128))) = true := by decide
  intro t ht v hv
  have ht' := List.all_eq_true.mp h t ht
  rw [hv] at ht'
  exact of_decide_eq_true ht'

theorem witness_UnrecognisedMnemonicAssemblesToAHalt :
    (tokens ['F', 'O', 'O', ' ', '1']).head? ≠ some ['A', 'D', 'D'] ∧
      (tokens ['F', 'O', 'O', ' ', '1']).head? ≠ some ['S', 'U', 'B'] ∧ (tokens []).head? ≠ some ['A', 'D', 'D'] := by
  decide

/-- The boundaries 128, 143, 144 and 255. -/
theorem witness_LiteralAbove127ExecutesAsARegister :
    parseUnsigned ['1', '2', '8'] = some 128 ∧ parseUnsigned ['1', '4', '3'] = some 143 ∧
      parseUnsigned ['1', '4', '4'] = some 144 ∧ parseUnsigned ['2', '5', '5'] = some 255 := by decide

/-- A line of one token, a whitespace character, and a line with a token. -/
theorem witness_LinesSplitIntoTokensAtWhitespace :
    (['A', 'D', 'D'] ≠ [] ∧ ∀ c ∈ ['A', 'D', 'D'], isWhitespace c = false) ∧ isWhitespace '\t' = true ∧
      ['1'] ∈ tokens ['A', 'D', 'D', ' ', ' ', '1', '\r', '\n'] :=
  ⟨⟨by decide, by simp [isWhitespace]⟩, by decide, by decide⟩

/-- The lowest and the highest digit, behind a number with a leading zero. -/
theorem witness_DigitTokensSpellTheirDecimalNumber :
    (48 ≤ '0'.toNat ∧ '0'.toNat ≤ 57) ∧ (48 ≤ '9'.toNat ∧ '9'.toNat ≤ 57) ∧ parseUnsigned ['0', '7'] = some 7 := by decide

/-- A halting step for each of the four codes. -/
theorem witness_HaltCauseCodesAreThoseOfTheTable :
    ((State.reset.setPc 2048).run = .running ∧
      (∃ t, step (State.reset.setPc 2048) = .next t ∧ t.run = .halted) ∧ 2048 ≤ (State.reset.setPc 2048).pc.toNat) ∧
    (State.reset.run = .running ∧ (∃ t, step State.reset = .next t ∧ t.run = .halted) ∧ State.reset.fetch = some 0) ∧
    ((∃ t, step (withWord 1 1 0) = .next t ∧ t.run = .halted) ∧ (withWord 1 1 0).fetch = some 1) ∧
    ((∃ t, step (withWord 0x18000000 1 0) = .next t ∧ t.run = .halted) ∧
      (withWord 0x18000000 1 0).fetch = some 0x18000000) :=
  ⟨⟨by decide, ⟨_, rfl, by decide⟩, by decide⟩, ⟨by decide, ⟨_, rfl, by decide⟩, by decide⟩,
    ⟨⟨_, rfl, by decide⟩, by decide⟩, ⟨_, rfl, by decide⟩, by decide⟩

/-- A canonical word that goes on and one that halts. -/
theorem witness_CanonicalWordsHaveNoReservedPart :
    State.reset.cause ≠ .unknownOpcode ∧ (canonical 0x080F8F7F = true ∧ ∃ t, exec (decode 0x080F8F7F) State.reset = .next t) ∧
      (canonical 0x0000008F = true ∧ ∃ t, exec (decode 0x0000008F) State.reset = .next t) :=
  ⟨by decide, ⟨by decide, _, rfl⟩, by decide, _, rfl⟩

/-- The last word of memory, and the first index beyond it. -/
theorem witness_PortsCarryTheFetchedWordsFieldsAndOperands :
    ((State.reset.setPc 2047).memWrite 2047 0x08010001).fetch = some 0x08010001 ∧ (State.reset.setPc 2048).fetch = none := by
  decide

/-- The narrowest and the widest vector, and the bits 0 and 31. -/
theorem witness_WideningKeepsTheValue : (0 < 1 ∧ 1 ≤ 32) ∧ (0 < 32 ∧ 32 ≤ 32) ∧ 0 < 32 ∧ 31 < 32 := by decide

end Sys2Proof.Tests
end

section
/-! The operand bytes that are immediates (R66), and the fields of an assembled word (R73). -/

namespace Sys2Proof.Machine

/-! ## Immediate bytes -/

/-- Bit 7 alone makes a byte a register reference (R64). -/
theorem resolve_isReg_iff (b : Byte) : (resolve b).isReg = true ↔ 128 ≤ b.toNat := by
  rcases byte_cases b with h | ⟨i, h⟩ | h
  · simp [resolve_immediate h, Source.isReg, h]
  · simp [resolve_register i h, Source.isReg, h]
  · simp only [resolve_overflow h, Source.isReg, true_iff]
    omega

theorem zext32_byte_toNat (b : Byte) : (zext32 b).toNat = b.toNat := by
  have hb := b.isLt
  rw [zext32, BitVec.toNat_ofNat]
  omega

/-- Settles O13, from the three kinds of operand byte and the value of an immediate one. -/
theorem immediateOperandsAreZeroTo127 : Obligations.ImmediateOperandsAreZeroTo127 := by
  intro b s
  constructor
  · rw [← Bool.not_eq_true, resolve_isReg_iff, Nat.not_le]
  · intro h
    constructor
    · rw [operandValue, resolve_immediate h]
      exact zext32_byte_toNat b
    · rw [resolve_immediate h]
      rfl

/-! ## Fields of a laid-out word, one by one and joined -/

theorem extract_rd_layOut (op : BitVec 5) (u : Unread) (f : Operands) :
    (extract (layOut op u f) 16 4).toNat = f.rd.val :=
  congrArg (fun g : Operands => g.rd.val) (operandsOf_layOut op u f)

theorem extract_op2_layOut (op : BitVec 5) (u : Unread) (f : Operands) : extract (layOut op u f) 8 8 = f.op2 :=
  congrArg Operands.op2 (operandsOf_layOut op u f)

theorem extract_op3_layOut (op : BitVec 5) (u : Unread) (f : Operands) : extract (layOut op u f) 0 8 = f.op3 :=
  congrArg Operands.op3 (operandsOf_layOut op u f)

theorem extract_cond_layOut (op : BitVec 5) (u : Unread) (f : Operands) : extract (layOut op u f) 22 5 = u.cond :=
  congrArg Unread.cond (unreadOf_layOut op u f)

theorem extract_rsv_layOut (op : BitVec 5) (u : Unread) (f : Operands) : extract (layOut op u f) 20 2 = u.rsv :=
  congrArg Unread.rsv (unreadOf_layOut op u f)

/-- The low 16 bits are the two operand bytes. -/
theorem extract_sources_layOut (op : BitVec 5) (u : Unread) (f : Operands) :
    extract (layOut op u f) 0 16 = f.op2 ++ f.op3 := by
  apply BitVec.eq_of_getLsbD_eq
  intro i hi
  rw [extract_getLsbD, layOut_getLsbD, BitVec.getLsbD_append]
  grind

/-- The low 20 bits are the destination and the two operand bytes. -/
theorem extract_operands_layOut (op : BitVec 5) (u : Unread) (f : Operands) :
    extract (layOut op u f) 0 20 = BitVec.ofFin (w := 4) f.rd ++ f.op2 ++ f.op3 := by
  apply BitVec.eq_of_getLsbD_eq
  intro i hi
  rw [extract_getLsbD, layOut_getLsbD, BitVec.getLsbD_append, BitVec.getLsbD_append]
  grind

/-! ## Fields of an assembled word -/

/-- The operands of an assembled word (R73). -/
def assembledOperands (marker : Char) (ts : List Token) : Operands where
  rd := ⟨destinationField marker ts[1]?, destinationField_lt marker _⟩
  op2 := BitVec.ofNat 8 (operandField marker ts[2]?)
  op3 := BitVec.ofNat 8 (operandField marker ts[3]?)

theorem assembleTokens_eq_layOut_assembledOperands (marker : Char) (ts : List Token) :
    assembleTokens marker ts =
      layOut (BitVec.ofNat 5 (mnemonicOpcode ts[0]?)) ⟨0, 0⟩ (assembledOperands marker ts) :=
  assembleTokens_eq_layOut marker ts

/-- The op-code of an assembled word is its mnemonic's (R76). -/
theorem extract_opcode_assembleTokens (marker : Char) (ts : List Token) :
    (extract (assembleTokens marker ts) 27 5).toNat = mnemonicOpcode ts[0]? := by
  have hlt := mnemonicOpcode_lt ts[0]?
  have hop := opcodeOf_layOut (BitVec.ofNat 5 (mnemonicOpcode ts[0]?)) ⟨0, 0⟩ (assembledOperands marker ts)
  rw [opcodeOf, ← assembleTokens_eq_layOut_assembledOperands] at hop
  rw [hop, BitVec.toNat_ofNat]
  omega

/-- A byte packed from an operand field keeps its value: the field fits (R83). -/
theorem operandField_byte_toNat (marker : Char) (t : Option Token) :
    (BitVec.ofNat 8 (operandField marker t)).toNat = operandField marker t := by
  rw [BitVec.toNat_ofNat, Nat.mod_eq_of_lt (operandField_lt marker t)]

theorem assembledOperands_op3_of_length_le {marker : Char} {ts : List Token} (h : ts.length ≤ 3) :
    (assembledOperands marker ts).op3 = 0 := by
  rw [assembledOperands, List.getElem?_eq_none h]
  rfl

theorem assembledOperands_op2_of_length_le {marker : Char} {ts : List Token} (h : ts.length ≤ 2) :
    (assembledOperands marker ts).op2 = 0 := by
  rw [assembledOperands, List.getElem?_eq_none h]
  rfl

theorem assembledOperands_rd_of_length_le {marker : Char} {ts : List Token} (h : ts.length ≤ 1) :
    (assembledOperands marker ts).rd = 0 := by
  apply Fin.ext
  show destinationField marker ts[1]? = 0
  rw [List.getElem?_eq_none h]
  rfl

/-- Settles O42: an assembled word is laid out from its line's fields, and an absent token's field is 0. -/
theorem assembledFieldsAreTheLinesFields : Obligations.AssembledFieldsAreTheLinesFields := by
  intro marker ts w
  have hw : w = layOut _ ⟨0, 0⟩ (assembledOperands marker ts) := assembleTokens_eq_layOut_assembledOperands marker ts
  have hop : (extract w 27 5).toNat = mnemonicOpcode ts[0]? := extract_opcode_assembleTokens marker ts
  refine ⟨?add, ?sub, ?other, ?rd, ?op2, ?op3, ?cond, ?rsv, ?noOperands, ?noSources, ?noOp3⟩
  case add => intro h; rw [hop, h]; rfl
  case sub => intro h; rw [hop, h]; rfl
  case other => intro hadd hsub; rw [hop, mnemonicOpcode, if_neg hadd, if_neg hsub]
  case rd => rw [hw, extract_rd_layOut]; rfl
  case op2 => rw [hw, extract_op2_layOut]; exact operandField_byte_toNat marker _
  case op3 => rw [hw, extract_op3_layOut]; exact operandField_byte_toNat marker _
  case cond => rw [hw, extract_cond_layOut]
  case rsv => rw [hw, extract_rsv_layOut]
  case noOperands =>
    intro h
    rw [hw, extract_operands_layOut, assembledOperands_rd_of_length_le h,
      assembledOperands_op2_of_length_le (by omega), assembledOperands_op3_of_length_le (by omega)]
    rfl
  case noSources =>
    intro h
    rw [hw, extract_sources_layOut, assembledOperands_op2_of_length_le h,
      assembledOperands_op3_of_length_le (by omega)]
    rfl
  case noOp3 => intro h; rw [hw, extract_op3_layOut, assembledOperands_op3_of_length_le h]

end Sys2Proof.Machine
end

section
/-! PROOFS of 40_dispatch.md: what ADD and SUB leave, as numbers (R100, R110, R111). -/

namespace Sys2Proof.Machine

/-! ## A retired instruction: its two register writes and its frame -/

/-- Another destination than `x[15]`: the advance is by one from the instruction's own index (R100). -/
theorem State.retire_pc_toNat_of_ne (s : State) {rd : RegIdx} (v : Word) (h : rd ≠ 15) :
    (s.retire rd v).pc.toNat = (s.pc.toNat + 1) % 2 ^ 32 := by
  rw [State.retire_pc, if_neg h, BitVec.toNat_add]
  rfl

/-- Destination `x[15]`: the advance is by one from the value written (R100). -/
theorem State.retire_pc_toNat_of_eq (s : State) {rd : RegIdx} (v : Word) (h : rd = 15) :
    (s.retire rd v).pc.toNat = (v.toNat + 1) % 2 ^ 32 := by
  rw [State.retire_pc, if_pos h, BitVec.toNat_add]
  rfl

/-- Writing a result whose number is `n` and then advancing, with the frame: the one fact that ADD and SUB share. -/
theorem State.retire_writes_then_advances (s : State) (rd : RegIdx) {v : Word} {n : Nat} (hv : v.toNat = n) :
    ((rd ≠ 15 → ((s.retire rd v).reg rd).toNat = n ∧ (s.retire rd v).pc.toNat = (s.pc.toNat + 1) % 2 ^ 32) ∧
      (rd = 15 → (s.retire rd v).pc.toNat = (n + 1) % 2 ^ 32)) ∧
    (∀ i, i ≠ rd → i ≠ 15 → (s.retire rd v).reg i = s.reg i) ∧ (∀ a, (s.retire rd v).memRead a = s.memRead a) ∧
    (s.retire rd v).run = s.run ∧ (s.retire rd v).cause = s.cause := by
  subst hv
  refine ⟨⟨fun h => ⟨?result, s.retire_pc_toNat_of_ne v h⟩, s.retire_pc_toNat_of_eq v⟩,
    fun i => s.retire_reg_other v, s.retire_memRead rd v, s.retire_run rd v, s.retire_cause rd v⟩
  case result => rw [s.retire_reg_dest v h]

/-- The difference in the order R10 writes it: the minuend first. -/
theorem toNat_sub_minuend_first (a b : Word) : (a - b).toNat = (a.toNat + 2 ^ 32 - b.toNat) % 2 ^ 32 := by
  rw [BitVec.toNat_sub]
  congr 1
  omega

/-! ## ADD and SUB -/

/-- Settles O17: ADD retires with the sum of its operands. -/
theorem addWritesSumThenAdvances : Obligations.AddWritesSumThenAdvances := by
  intro u f s
  exact ⟨_, execAdd_eq f s, s.retire_writes_then_advances f.rd (BitVec.toNat_add ..)⟩

/-- Settles O18: SUB retires with the difference of its operands. -/
theorem subWritesDifferenceThenAdvances : Obligations.SubWritesDifferenceThenAdvances := by
  intro u f s
  exact ⟨_, execSub_eq f s, s.retire_writes_then_advances f.rd (toNat_sub_minuend_first _ _)⟩

end Sys2Proof.Machine
end

section
/-! PROOFS of 70_reset_and_hazards.md: a step that changes nothing makes a run that never ends, and `SUB 15 r15 1` is
such a step (R157). -/

namespace Sys2Proof.Machine

/-! ## Runs that stand still -/

theorem State.output_of_running {s : State} (h : s.run = .running) : s.output = none := by
  simp only [State.output, h]

/-- A running state that steps to itself is where its run stays, however many steps are taken; each of them retires. -/
theorem runFor_of_step_eq_self {s : State} (h : s.run = .running) (hs : step s = .next s) (k : Nat) :
    runFor k s = ⟨s, k, k⟩ := by
  induction k with
  | zero => exact runFor_zero s
  | succ k ih => rw [runFor_succ h hs, ih, RunRecord.afterStep, if_pos h]

/-- A run whose every prefix leaves the block running ends under no parameters (R102). -/
theorem not_endsWith_of_always_running {s : State} (h : ∀ k, (runFor k s).state.run = .running)
    (p : Config.Params) (r : RunRecord) : ¬ EndsWith p s r := by
  rintro ⟨k, -, rfl, hhalted⟩
  rw [h k] at hhalted
  cases hhalted

/-! ## The step of `SUB 15 r15 1` -/

/-- The word of a SUB decodes to it, whatever its fields: its op-code keeps it from being the sentinel. -/
theorem decode_encode_sub (u : Unread) (f : Operands) : decode (encode (.sub u f)) = .sub u f :=
  decode_layOut (layOut_ne_zero (by decide) u f)

/-- The byte `0x8F` names the program counter (R21, R64). -/
theorem operandValue_pc (s : State) : operandValue 0x8F s = s.pc := by
  rw [operandValue, resolve_register 15 (by decide)]
  rfl

/-- The byte `0x01` is the literal 1 (R66). -/
theorem operandValue_one (s : State) : operandValue 0x01 s = 1 := by
  rw [operandValue, resolve_immediate (by decide)]
  rfl

/-- The advance takes back a write of one less than the program counter to `x[15]` (R100). -/
theorem State.retire_pc_sub_one (s : State) : s.retire 15 (s.pc - 1) = s := by
  calc s.retire 15 (s.pc - 1)
      = (s.setPc (s.pc - 1)).setPc ((s.setPc (s.pc - 1)).pc + 1) := rfl
    _ = (s.setPc (s.pc - 1)).setPc s.pc := by rw [State.setPc_pc, BitVec.sub_add_cancel]
    _ = s.setPc s.pc := s.setReg_setReg _ _ _
    _ = s := s.setReg_reg _

theorem execSub_pc_minus_one (s : State) : execSub ⟨15, 0x8F, 0x01⟩ s = .next s := by
  rw [execSub_eq, operandValue_pc, operandValue_one, s.retire_pc_sub_one]

/-- At the word of `SUB 15 r15 1` a running block stands still (R157). -/
theorem step_of_self_loop {s : State} (u : Unread) (h : s.pc.toNat < 2048) (hrun : s.run = .running)
    (hword : s.memRead ⟨s.pc.toNat, h⟩ = encode (.sub u ⟨15, 0x8F, 0x01⟩)) : step s = .next s := by
  rw [step_of_fetch_some hrun (State.fetch_of_lt h), hword, decode_encode_sub]
  exact execSub_pc_minus_one s

/-- Settles O40: the step stands still, so no number of steps halts the run. -/
theorem selfLoopRunsForever : Obligations.SelfLoopRunsForever := by
  intro s u h hrun hword
  have hstep : step s = .next s := step_of_self_loop u h hrun hword
  have hfor : ∀ k, runFor k s = ⟨s, k, k⟩ := runFor_of_step_eq_self hrun hstep
  have hrunning : ∀ k, (runFor k s).state.run = .running := fun k => by rw [hfor k]; exact hrun
  exact ⟨hstep, fun k => ⟨hfor k, State.output_of_running (hrunning k)⟩, not_endsWith_of_always_running hrunning⟩

end Sys2Proof.Machine
end

section
/-! PROOFS of 30_encoding.md sections 1 to 5: decoding and encoding undo each other, a word's row is its op-code's, and
the bits the decoder does not read have no effect. -/

namespace Sys2Proof

/-! ## Decoding and encoding -/

/-- A well-formed row is no NOP of zero fields, so its word is not the sentinel's (R68). -/
theorem layOut_ne_zero_of_wellFormed {op : BitVec 5} {u : Unread} {f : Operands} (h : (opcodeRow op u f).WellFormed) :
    layOut op u f ≠ 0 := by
  rw [Ne, layOut_eq_zero_iff]
  rintro ⟨rfl, rfl, rfl⟩
  exact absurd h (by decide)

theorem decode_encode {i : Instr} (h : i.WellFormed) : decode (encode i) = i := by
  rcases i.eq_sentinel_or_row with rfl | ⟨op, u, f, rfl⟩
  · exact decode_zero
  · rw [encode_opcodeRow, decode_layOut (layOut_ne_zero_of_wellFormed h)]

theorem encode_decode (w : Word) : encode (decode w) = w := by
  by_cases h : w = 0
  · subst h; rfl
  · rw [decode_of_ne_zero h, encode_opcodeRow, layOut_fields]

theorem wellFormed_decode (w : Word) : (decode w).WellFormed := by
  by_cases h : w = 0
  · subst h; rfl
  · rw [decode_of_ne_zero h]
    exact wellFormed_opcodeRow (by rwa [layOut_fields])

/-- Settles O8: an instruction is the sentinel or a row, and a well-formed row's word is not the sentinel's. -/
theorem decodeOfEncodeIsTheInstruction : Obligations.DecodeOfEncodeIsTheInstruction := fun _ h => decode_encode h

/-- Settles O9: a word is the sentinel or the layout of its own fields. -/
theorem everyWordDecodesAndEncodesBack : Obligations.EveryWordDecodesAndEncodesBack :=
  fun w => ⟨wellFormed_decode w, encode_decode w⟩

/-! ## The decoded fields -/

/-- A non-zero op-code keeps a word from being the sentinel. -/
theorem ne_zero_of_opcodeOf {w : Word} (h : (opcodeOf w).toNat ≠ 0) : w ≠ 0 := by
  rintro rfl
  exact h rfl

/-- A word other than the sentinel decodes to the row of the op-code it has. -/
theorem decode_of_opcodeOf {w : Word} {op : BitVec 5} (hw : w ≠ 0) (h : (opcodeOf w).toNat = op.toNat) :
    decode w = opcodeRow op (unreadOf w) (operandsOf w) := by
  rw [decode_of_ne_zero hw, BitVec.eq_of_toNat_eq h]

/-- Bit `k` of a field of `n` bits, for a `k` below `n`. -/
theorem extract_getLsbD_of_lt (w : Word) (s : Nat) {n k : Nat} (h : k < n) :
    (extract w s n).getLsbD k = w.getLsbD (s + k) := by
  rw [extract_getLsbD, decide_eq_true h, Bool.true_and]

/-- Settles O7: the unpacker's value and bits, and the rows of op-codes 1, 2 and 0. -/
theorem decodedFieldsAreTheirBits : Obligations.DecodedFieldsAreTheirBits := by
  intro w
  refine ⟨fun s n _ => extract_toNat w s n, ?opcode, ?rd, ?op2, ?op3, ?add, ?sub, ?nop⟩
  case opcode => exact fun k hk => extract_getLsbD_of_lt w 27 hk
  case rd => exact fun k hk => extract_getLsbD_of_lt w 16 hk
  case op2 => exact fun k hk => extract_getLsbD_of_lt w 8 hk
  case op3 => exact fun k hk => (extract_getLsbD_of_lt w 0 hk).trans (by rw [Nat.zero_add])
  case add => exact fun h => decode_of_opcodeOf (op := 1) (ne_zero_of_opcodeOf (by omega)) h
  case sub => exact fun h => decode_of_opcodeOf (op := 2) (ne_zero_of_opcodeOf (by omega)) h
  case nop => exact fun h hw => decode_of_opcodeOf (op := 0) hw h

/-- Settles O11, by evaluating the decoder on the eight words. -/
theorem vectorWordsDecode : Obligations.VectorWordsDecode := by
  unfold Obligations.VectorWordsDecode
  decide

/-! ## The rows of the op-code table -/

/-- The match and mask of an op-code's row: the mask keeps the op-code alone, and the match is that op-code (R67). -/
theorem row_opcodeRow (op : BitVec 5) (u : Unread) (f : Operands) :
    (opcodeRow op u f).row.maskBits = 0xF8000000 ∧ (opcodeRow op u f).row.matchBits = layOut op ⟨0, 0⟩ ⟨0, 0, 0⟩ := by
  refine forall_opcode_rows (P := fun op row =>
    (row u f).row.maskBits = 0xF8000000 ∧ (row u f).row.matchBits = layOut op ⟨0, 0⟩ ⟨0, 0, 0⟩) ?_ op
  intro i
  fin_cases i <;> exact ⟨rfl, rfl⟩

/-- The fields of an instruction do not change its row. -/
theorem row_opcodeRow_congr (op : BitVec 5) (u u' : Unread) (f f' : Operands) :
    (opcodeRow op u f).row = (opcodeRow op u' f').row := by
  refine forall_opcode_rows (P := fun _ row => (row u f).row = (row u' f').row) ?_ op
  intro i
  fin_cases i <;> rfl

/-- A word matches an op-code's row exactly when it has that op-code. -/
theorem matchesWord_opcodeRow_iff (op : BitVec 5) (u : Unread) (f : Operands) (w : Word) :
    (opcodeRow op u f).row.matchesWord w = true ↔ opcodeOf w = op := by
  obtain ⟨hmask, hmatch⟩ := row_opcodeRow op u f
  have hmasked : w &&& 0xF8000000 = layOut (opcodeOf w) ⟨0, 0⟩ ⟨0, 0, 0⟩ := by
    conv_lhs => rw [← layOut_fields w]
    exact Laws.EncodesItsRow.layOut_masked _ _ _
  rw [TableRow.matchesWord, decide_eq_true_iff, hmask, hmatch, hmasked, layOut_eq_iff]
  exact and_iff_left ⟨rfl, rfl⟩

/-- A word matches the sentinel's row exactly when it is the all-zero word: that row's mask keeps every bit. -/
theorem matchesWord_haltSentinel_iff (w : Word) : Instr.haltSentinel.row.matchesWord w = true ↔ w = 0 := by
  have hmask : Instr.haltSentinel.row.maskBits = BitVec.allOnes 32 := rfl
  rw [TableRow.matchesWord, decide_eq_true_iff, hmask, BitVec.and_allOnes]
  rfl

theorem matchesWord_row_decode (w : Word) : (decode w).row.matchesWord w = true := by
  by_cases h : w = 0
  · subst h; exact (matchesWord_haltSentinel_iff 0).mpr rfl
  · rw [decode_of_ne_zero h]
    exact (matchesWord_opcodeRow_iff _ _ _ w).mpr rfl

/-- Settles O10: the rows differ by op-code, and the all-zero word is the one that two rows match. -/
theorem wordMatchesOnlyItsTableRow : Obligations.WordMatchesOnlyItsTableRow := by
  intro w
  refine ⟨matchesWord_row_decode w, fun i hi => ?_⟩
  rcases i.eq_sentinel_or_row with rfl | ⟨op, u, f, rfl⟩
  · have hw : w = 0 := (matchesWord_haltSentinel_iff w).mp hi
    subst hw
    exact .inl rfl
  · have hop : opcodeOf w = op := (matchesWord_opcodeRow_iff op u f w).mp hi
    subst hop
    by_cases hw : w = 0
    · subst hw
      exact .inr ⟨rfl, u, f, rfl⟩
    · left
      rw [decode_of_ne_zero hw]
      exact row_opcodeRow_congr _ _ _ _ _

end Sys2Proof

namespace Sys2Proof.Machine

/-! ## The unread bits and the canonical words -/

/-- `exec` of a row does not depend on the bits the decoder does not read (R63). -/
theorem exec_row_unread (op : BitVec 5) (u u' : Unread) (f : Operands) (s : State) :
    exec (opcodeRow op u f) s = exec (opcodeRow op u' f) s := by
  rw [exec_row, exec_row]

/-- Settles O12: a word keeps its op-code and operands when its unread bits are cleared, unless that leaves the sentinel. -/
theorem reservedBitsHaveNoEffect : Obligations.ReservedBitsHaveNoEffect := by
  intro w s
  rw [and_clear_unread]
  constructor
  · intro hne
    have hw : w ≠ 0 := by rintro rfl; exact hne rfl
    rw [decode_of_ne_zero hw, decode_layOut hne]
    exact exec_row_unread _ _ _ _ s
  · intro hw hzero
    have hop : opcodeOf w = 0 := (layOut_eq_zero_iff.mp hzero).1
    rw [decode_of_ne_zero hw, hop]
    exact execNop_eq _ s

/-- Bits 26-20 are the field of seven bits from bit 20 on (R71). -/
theorem extract_unread_eq_zero_iff (w : Word) :
    extract w 20 7 = 0 ↔ ∀ k, 20 ≤ k → k < 27 → w.getLsbD k = false := by
  constructor
  · intro h k hlo hhi
    have hbit : (extract w 20 7).getLsbD (k - 20) = w.getLsbD k := by
      rw [extract_getLsbD_of_lt w 20 (by omega), Nat.add_sub_cancel' hlo]
    rw [← hbit, h]
    exact BitVec.getLsbD_zero
  · intro h
    apply BitVec.eq_of_getLsbD_eq
    intro k hk
    rw [extract_getLsbD_of_lt w 20 hk, h (20 + k) (by omega) (by omega)]
    exact BitVec.getLsbD_zero.symm

/-- R71, in numbers. -/
theorem canonical_iff (w : Word) :
    canonical w = true ↔ (∀ k, 20 ≤ k → k < 27 → w.getLsbD k = false) ∧ (opcodeOf w).toNat ≤ 2 ∧
      (operandsOf w).op2.toNat < 144 ∧ (operandsOf w).op3.toNat < 144 := by
  rw [canonical, Bool.and_eq_true, Bool.and_eq_true, Bool.and_eq_true, decide_eq_true_iff, decide_eq_true_iff,
    canonicalByte_iff, canonicalByte_iff, extract_unread_eq_zero_iff, and_assoc, and_assoc, Nat.lt_succ_iff]
  rfl

/-- Only an op-code from 3 on sets the cause `UNKNOWN_OPCODE` (R121). -/
theorem exec_decode_cause_ne_unknown {w : Word} {s t : State} (hop : (opcodeOf w).toNat ≤ 2)
    (hs : s.cause ≠ .unknownOpcode) (h : exec (decode w) s = .next t) : t.cause ≠ .unknownOpcode := by
  rcases exec_decode_cases w s with ⟨-, he⟩ | ⟨-, -, he⟩ | ⟨-, -, he⟩ | ⟨-, -, he⟩ | ⟨-, hop', -⟩
  case inr.inr.inr.inr => omega
  all_goals
    rw [he] at h
    cases h
  · exact HaltCause.noConfusion
  · exact HaltCause.noConfusion
  · exact hs
  · exact hs

/-- Settles O50: `canonical` in numbers, and a canonical word has an op-code below 3. -/
theorem canonicalWordsHaveNoReservedPart : Obligations.CanonicalWordsHaveNoReservedPart := by
  intro w
  refine ⟨canonical_iff w, fun hc s t hs h => ?_⟩
  obtain ⟨-, hop, -, -⟩ := (canonical_iff w).mp hc
  exact exec_decode_cause_ne_unknown hop hs h

end Sys2Proof.Machine
end

section
/-! PROOFS of 40_dispatch.md and 60_exceptions.md: what a step keeps, writes and reads, and the causes it sets. -/

namespace Sys2Proof.Machine

/-! ## The two shapes of a step -/

/-- A step of a running block halts with a cause and no other write, or retires one instruction: the two shapes behind the
cases of `StepCase`. -/
theorem step_halts_or_retires {s t : State} (h : s.run = .running) (hs : step s = .next t) :
    (∃ c, c ≠ .none ∧ t = s.raiseHalt c) ∨ ∃ w v, s.fetch = some w ∧ t = s.retire (operandsOf w).rd v := by
  cases step_cases hs with
  | halted h' _ => rw [h] at h'; cases h'
  | outOfRange _ _ _ ht => exact .inl ⟨_, HaltCause.noConfusion, ht⟩
  | sentinel _ _ _ ht => exact .inl ⟨_, HaltCause.noConfusion, ht⟩
  | nop _ _ _ _ _ _ ht => exact .inl ⟨_, HaltCause.noConfusion, ht⟩
  | unknown _ _ _ _ _ _ ht => exact .inl ⟨_, HaltCause.noConfusion, ht⟩
  | add w _ _ hf _ _ ht => exact .inr ⟨w, _, hf, ht⟩
  | sub w _ _ hf _ _ ht => exact .inr ⟨w, _, hf, ht⟩

/-! ## The invariant -/

/-- Settles O2: an empty list is canonical, and reset leaves the block running with no cause. -/
theorem resetMeetsInvariant : Obligations.ResetMeetsInvariant := ⟨rfl, iff_of_true rfl rfl⟩

/-- A halt with a cause other than `NONE` meets the invariant of memory and cause. -/
theorem State.Inv.raiseHalt {s : State} (h : s.Inv) {c : HaltCause} (hc : c ≠ .none) : (s.raiseHalt c).Inv :=
  ⟨h.memory_wf, iff_of_false RunState.noConfusion hc⟩

/-- A retired instruction writes registers alone. -/
theorem State.Inv.retire {s : State} (h : s.Inv) (rd : RegIdx) (v : Word) : (s.retire rd v).Inv :=
  ⟨h.memory_wf, h.running_iff_no_cause⟩

theorem State.Inv.step {s t : State} (h : s.Inv) (hs : Machine.step s = .next t) : t.Inv := by
  cases hr : s.run with
  | halted =>
    rw [step_of_halted hr] at hs
    cases hs
    exact h
  | running =>
    rcases step_halts_or_retires hr hs with ⟨c, hc, rfl⟩ | ⟨w, v, -, rfl⟩
    · exact h.raiseHalt hc
    · exact h.retire _ v

/-- Settles O34: a step does nothing, halts with a cause, or retires one instruction. -/
theorem everyStepKeepsTheInvariant : Obligations.EveryStepKeepsTheInvariant := fun _ _ h hs => h.step hs

/-! ## What a step writes -/

/-- No step writes memory (R41, R45). -/
theorem step_mem {s t : State} (hs : step s = .next t) : t.mem = s.mem := by
  cases hr : s.run with
  | halted => rw [step_of_halted hr] at hs; cases hs; rfl
  | running => rcases step_halts_or_retires hr hs with ⟨c, -, rfl⟩ | ⟨w, v, -, rfl⟩ <;> rfl

/-- Settles O30: of the two shapes of a step, the one that ends halted is a halt with a cause. -/
theorem haltingIsPrecise : Obligations.HaltingIsPrecise := by
  intro s t hr hs ht
  rcases step_halts_or_retires hr hs with ⟨c, hc, rfl⟩ | ⟨w, v, -, rfl⟩
  · exact ⟨rfl, rfl, rfl, hc⟩
  · rw [State.retire_run, hr] at ht
    cases ht

/-- Settles O32: a halted block keeps every register, a halt writes none, and a retired instruction writes `x[rd]` and
`x[15]`. -/
theorem stepWritesAtMostTwoRegisters : Obligations.StepWritesAtMostTwoRegisters := by
  intro s t hs
  have hmem : ∀ a, t.memRead a = s.memRead a := fun a => by rw [State.memRead, step_mem hs]; rfl
  cases hr : s.run with
  | halted =>
    rw [step_of_halted hr] at hs
    cases hs
    exact ⟨fun _ _ _ _ _ => rfl, fun _ => rfl, hmem, .inl ⟨hr, rfl⟩⟩
  | running =>
    rcases step_halts_or_retires hr hs with ⟨c, -, rfl⟩ | ⟨w, v, hf, rfl⟩
    · exact ⟨fun _ _ _ _ _ => rfl, fun _ => rfl, hmem, .inr ⟨rfl, rfl, rfl⟩⟩
    · refine ⟨fun w' hf' i hi hi' => ?_, fun hnone => ?_, hmem, .inl ⟨hr, rfl⟩⟩
      · rw [hf] at hf'
        cases hf'
        exact s.retire_reg_other v hi hi'
      · rw [hf] at hnone
        cases hnone

/-! ## The step of a fetched word -/

/-- Settles O24: in range the fetched word is the one at the program counter, and a well-formed instruction's word decodes
to it. -/
theorem stepRunsTheDecodedInstruction : Obligations.StepRunsTheDecodedInstruction := by
  have hstep : ∀ (s : State) (h : s.pc.toNat < 2048), s.run = .running →
      step s = exec (decode (s.memRead ⟨s.pc.toNat, h⟩)) s :=
    fun s h hr => step_of_fetch_some hr (State.fetch_of_lt h)
  refine ⟨hstep, fun s i h hr hi hword => ?_⟩
  rw [hstep s h hr, hword, decode_encode hi]

/-- Settles O28: out of range there is no fetch, and the step is `PC_OUT_OF_RANGE`'s halt. -/
theorem programCounterOutOfRangeHalts : Obligations.ProgramCounterOutOfRangeHalts := by
  intro s hr hpc
  have hf : s.fetch = none := State.fetch_of_ge hpc
  exact ⟨hf, step_of_fetch_none hr hf⟩

/-- Settles O31: a halted block's step answers the same state, and a run takes none. -/
theorem haltedBlockNeverChanges : Obligations.HaltedBlockNeverChanges :=
  fun _ h => ⟨step_of_halted h, runFor_of_halted h⟩

/-- Settles O20: the three ways of halting, and each of the 29 op-codes without a handler is the fallback. -/
theorem haltingInstructionsChangeOnlyRunAndCause : Obligations.HaltingInstructionsChangeOnlyRunAndCause := by
  intro u f s
  refine ⟨execHaltSentinel_eq s, execNop_eq f s, fun i hi => ?_⟩
  fin_cases hi <;> exact runFallback_eq f s

/-! ## What a step reads -/

theorem exec_answers_next (i : Instr) (s : State) : ∃ t, exec i s = .next t := by
  rcases i.eq_sentinel_or_row with rfl | ⟨op, u, f, rfl⟩
  · exact ⟨_, execHaltSentinel_eq s⟩
  · rw [exec_row]
    cases select op with
    | nop => exact ⟨_, execNop_eq f s⟩
    | add => exact ⟨_, execAdd_eq f s⟩
    | sub => exact ⟨_, execSub_eq f s⟩
    | fallback => exact ⟨_, runFallback_eq f s⟩

/-- The state with another memory. -/
def State.withMem (s : State) (m : Memory) : State := { s with mem := m }

theorem State.withMem_mem_of_agree {s t : State} (hregs : s.regs = t.regs) (hrun : s.run = t.run)
    (hcause : s.cause = t.cause) : s.withMem t.mem = t := by
  rw [State.withMem, hregs, hrun, hcause]

/-- `exec` neither reads nor writes memory: with another memory it answers the same state with that memory. -/
theorem exec_withMem (i : Instr) {s t : State} (m : Memory) (h : exec i s = .next t) :
    exec i (s.withMem m) = .next (t.withMem m) := by
  rcases i.eq_sentinel_or_row with rfl | ⟨op, u, f, rfl⟩
  · cases h; rfl
  · rw [exec_row] at h ⊢
    cases hsel : select op <;> rw [hsel] at h <;> cases h <;> rfl

/-- The step reads memory by its fetch alone (R105). -/
theorem step_withMem {s t : State} (m : Memory) (hf : (s.withMem m).fetch = s.fetch) (h : step s = .next t) :
    step (s.withMem m) = .next (t.withMem m) := by
  cases hr : s.run with
  | halted =>
    rw [step_of_halted hr] at h
    cases h
    exact step_of_halted hr
  | running =>
    have hr' : (s.withMem m).run = .running := hr
    cases hw : s.fetch with
    | none =>
      rw [step_of_fetch_none hr hw] at h
      cases h
      exact step_of_fetch_none hr' (hf.trans hw)
    | some w =>
      rw [step_of_fetch_some hr hw] at h
      rw [step_of_fetch_some hr' (hf.trans hw)]
      exact exec_withMem (decode w) m h

/-- Settles O33: states that agree outside memory differ by a memory, which the step reads by its fetch alone. -/
theorem stepIsTotalAndReadsOnlyTheFetchedWord : Obligations.StepIsTotalAndReadsOnlyTheFetchedWord := by
  refine ⟨fun s => ?total, exec_answers_next, fun s t s' t' hregs hrun hcause hfetch hs ht => ?reads⟩
  case total =>
    obtain ⟨t, ht, -⟩ := step_spec s
    exact ⟨t, ht⟩
  case reads =>
    have hst : s.withMem t.mem = t := State.withMem_mem_of_agree hregs hrun hcause
    have hstep : step (s.withMem t.mem) = .next (s'.withMem t.mem) := step_withMem t.mem (by rw [hst, hfetch]) hs
    rw [hst, ht] at hstep
    cases hstep
    exact ⟨rfl, rfl, rfl⟩

end Sys2Proof.Machine
end

section
/-! PROOFS of 40_dispatch.md sections 1 and 2 and 60_exceptions.md section 1: the order of the halt checks, the pseudocode of
R91, the port equations of R90 and the placing of a word are all the one step. -/

namespace Sys2Proof.Machine

/-! ## The meaning of a word, by its op-code -/

theorem select_of_three_le {op : BitVec 5} (h : 3 ≤ op.toNat) : select op = .fallback := by
  rcases select_cases op with ⟨h', -⟩ | ⟨h', -⟩ | ⟨h', -⟩ | ⟨-, hsel⟩
  case inr.inr.inr => exact hsel
  all_goals omega

theorem exec_decode_nop {w : Word} (hw : w ≠ 0) (hop : (opcodeOf w).toNat = 0) (s : State) :
    exec (decode w) s = .next (s.raiseHalt .haltNop) := by
  rw [decode_of_opcodeOf (op := 0) hw hop]
  exact execNop_eq _ s

theorem exec_decode_unknown {w : Word} (hop : 3 ≤ (opcodeOf w).toNat) (s : State) :
    exec (decode w) s = .next (s.raiseHalt .unknownOpcode) := by
  rw [decode_of_ne_zero (ne_zero_of_opcodeOf (by omega)), exec_row, select_of_three_le hop]
  exact runFallback_eq _ s

theorem exec_decode_add {w : Word} (hop : (opcodeOf w).toNat = 1) (s : State) :
    exec (decode w) s = .next (s.retire (operandsOf w).rd
      (operandValue (operandsOf w).op2 s + operandValue (operandsOf w).op3 s)) := by
  rw [decode_of_opcodeOf (op := 1) (ne_zero_of_opcodeOf (by omega)) hop]
  exact execAdd_eq _ s

theorem exec_decode_sub {w : Word} (hop : (opcodeOf w).toNat = 2) (s : State) :
    exec (decode w) s = .next (s.retire (operandsOf w).rd
      (operandValue (operandsOf w).op2 s - operandValue (operandsOf w).op3 s)) := by
  rw [decode_of_opcodeOf (op := 2) (ne_zero_of_opcodeOf (by omega)) hop]
  exact execSub_eq _ s

/-- An ADD and a SUB alike write one register and advance. -/
theorem exec_decode_retires {w : Word} (hop : (opcodeOf w).toNat = 1 ∨ (opcodeOf w).toNat = 2) (s : State) :
    ∃ v, exec (decode w) s = .next (s.retire (operandsOf w).rd v) := by
  rcases hop with hop | hop
  · exact ⟨_, exec_decode_add hop s⟩
  · exact ⟨_, exec_decode_sub hop s⟩

/-- The cause of the halt on a fetched word that is no ADD and no SUB: the sentinel's, else the no-op handler's, else the
fallback's (R95, R101). -/
def haltCauseOf (w : Word) : HaltCause :=
  if w = 0 then .haltSentinel else if (opcodeOf w).toNat = 0 then .haltNop else .unknownOpcode

theorem exec_decode_halts {w : Word} (hadd : (opcodeOf w).toNat ≠ 1) (hsub : (opcodeOf w).toNat ≠ 2) (s : State) :
    exec (decode w) s = .next (s.raiseHalt (haltCauseOf w)) := by
  by_cases hw : w = 0
  · subst hw; exact execHaltSentinel_eq s
  · by_cases hop : (opcodeOf w).toNat = 0
    · rw [haltCauseOf, if_neg hw, if_pos hop, exec_decode_nop hw hop]
    · rw [haltCauseOf, if_neg hw, if_neg hop, exec_decode_unknown (by omega)]

/-- The codes of the causes of a fetched word (R27). -/
theorem haltCauseOf_code (w : Word) :
    (haltCauseOf w).code.toNat = if w = 0 then 1 else if (opcodeOf w).toNat = 0 then 2 else 3 := by
  rw [haltCauseOf]
  split_ifs <;> rfl

/-- Settles O29: in range the step is the meaning of the fetched word, and out of range its halt. -/
theorem haltChecksAreMadeInOrder : Obligations.HaltChecksAreMadeInOrder := by
  intro s t hr hs
  constructor
  · intro hpc
    rw [step_of_fetch_none hr (State.fetch_of_ge hpc)] at hs
    cases hs
    exact ⟨rfl, rfl⟩
  · intro h w
    have he : exec (decode w) s = .next t := (step_of_fetch_some hr (State.fetch_of_lt h)).symm.trans hs
    refine ⟨fun hw => ?sentinel, fun hw hop => ?nop, fun _ hop => ?unknown, fun hop => ?retires⟩
    case sentinel =>
      rw [hw] at he
      cases he
      exact ⟨rfl, rfl⟩
    case nop =>
      rw [exec_decode_nop hw hop] at he
      cases he
      exact ⟨rfl, rfl⟩
    case unknown =>
      rw [exec_decode_unknown hop] at he
      cases he
      exact ⟨rfl, rfl⟩
    case retires =>
      obtain ⟨v, hv⟩ := exec_decode_retires hop s
      rw [hv] at he
      cases he
      exact ⟨hr, rfl⟩

/-! ## The pseudocode -/

/-- `exec` of a row is the selected handler and the end of the step (R97 to R101). -/
theorem exec_row_eq_finishStep (op : BitVec 5) (u : Unread) (f : Operands) (s : State) :
    exec (opcodeRow op u f) s = .next (finishStep (select op) (callHandler (select op) f s)) := by
  rw [exec_row]
  cases select op <;> rfl

/-- The last lines of R91 are the end of the step, after any handler: an ADD or a SUB never stops. -/
theorem afterHandler_callHandler (h : Handler) (f : Operands) (s : State) :
    afterHandler h (callHandler h f s) = finishStep h (callHandler h f s) := by
  cases h with
  | nop => rfl
  | add => simp only [afterHandler, callHandler, handleAdd, add32_eq]; rfl
  | sub => simp only [afterHandler, callHandler, handleSub, add32_eq]; rfl
  | fallback => rfl

theorem pseudoStep_of_ge {s : State} (h : 2048 ≤ s.pc.toNat) : pseudoStep s = s.raiseHalt .pcOutOfRange := dif_pos h

/-- In range the pseudocode tests the fetched word for the sentinel, then runs the handler its op-code selects. -/
theorem pseudoStep_of_lt {s : State} (h : s.pc.toNat < 2048) :
    pseudoStep s =
      let w := s.memRead ⟨s.pc.toNat, h⟩
      if w = 0 then s.raiseHalt .haltSentinel
      else afterHandler (select (opcodeOf w)) (callHandler (select (opcodeOf w)) (operandsOf w) s) :=
  dif_neg (Nat.not_le.mpr h)

/-- Settles O26: the bounds check is the fetch, the sentinel test is the decoder's, and the rest is the row's handler. -/
theorem stepIsTheSpecPseudocode : Obligations.StepIsTheSpecPseudocode := by
  intro s hr
  by_cases hpc : s.pc.toNat < 2048
  · rw [step_of_fetch_some hr (State.fetch_of_lt hpc), pseudoStep_of_lt hpc]
    generalize s.memRead _ = w
    by_cases hw : w = 0
    · subst hw; rfl
    · rw [decode_of_ne_zero hw, exec_row_eq_finishStep, ← afterHandler_callHandler]
      exact congrArg _ (if_neg hw).symm
  · have hge : 2048 ≤ s.pc.toNat := Nat.not_lt.mp hpc
    rw [step_of_fetch_none hr (State.fetch_of_ge hge), pseudoStep_of_ge hge]

/-! ## The ports -/

theorem fetch_eq_none_iff {s : State} : s.fetch = none ↔ 2048 ≤ s.pc.toNat := by
  refine ⟨fun h => ?_, State.fetch_of_ge⟩
  by_contra hpc
  rw [State.fetch_of_lt (by omega)] at h
  cases h

theorem pc_lt_of_fetch {s : State} {w : Word} (h : s.fetch = some w) : s.pc.toNat < 2048 := by
  by_contra hpc
  rw [State.fetch_of_ge (by omega)] at h
  cases h

/-- A fetched word is the word at the program counter. -/
theorem memRead_of_fetch {s : State} {w : Word} (h : s.fetch = some w) :
    s.memRead ⟨s.pc.toNat, pc_lt_of_fetch h⟩ = w := by
  rw [State.fetch_of_lt (pc_lt_of_fetch h)] at h
  exact Option.some.inj h

/-- `imem_addr_o` is the program counter of a state that fetches. -/
theorem imemAddr_of_fetch {s : State} {w : Word} (h : s.fetch = some w) :
    imemAddr s.pc = ⟨s.pc.toNat, pc_lt_of_fetch h⟩ := imemAddr_of_lt _

/-- `instr_i` is the word a step fetches (R90). -/
theorem blockInputs_instr_of_fetch {s : State} {w : Word} (h : s.fetch = some w) : (blockInputs s).instr = w := by
  show s.memRead (imemAddr s.pc) = w
  rw [imemAddr_of_fetch h, memRead_of_fetch h]

/-- `fetch_ok_o` is 1 exactly when the step fetches (R93). -/
theorem fetchOk_of_fetch {s : State} {w : Word} (h : s.fetch = some w) : fetchOk s.pc = true :=
  decide_eq_true (pc_lt_of_fetch h)

theorem fetchOk_of_fetch_none {s : State} (h : s.fetch = none) : fetchOk s.pc = false :=
  decide_eq_false (Nat.not_lt.mpr (fetch_eq_none_iff.mp h))

theorem sentinel_iff (w : Word) : sentinel w = true ↔ w = 0 := decide_eq_true_iff

/-- `sel_o` is the op-code, or 3 for every op-code without a handler (R97). -/
theorem handlerSelect_toNat (w : Word) : (handlerSelect w).toNat = min (opcodeOf w).toNat 3 := by
  rw [handlerSelect_eq]
  rcases select_cases (opcodeOf w) with ⟨h, hsel⟩ | ⟨h, hsel⟩ | ⟨h, hsel⟩ | ⟨h, hsel⟩ <;> rw [hsel]
  · rw [h]; rfl
  · rw [h]; rfl
  · rw [h]; rfl
  · rw [Nat.min_eq_right h]; rfl

theorem handlerSelect_eq_iff (w : Word) {n : BitVec 2} (hn : n.toNat < 3) :
    handlerSelect w = n ↔ (opcodeOf w).toNat = n.toNat := by
  rw [← BitVec.toNat_inj, handlerSelect_toNat]
  omega

/-- `exec_o`: a running block that fetches a word other than the sentinel (R90). -/
theorem execEnable_iff (i : BlockIn) : execEnable i = true ↔ i.run = true ∧ fetchOk i.pc = true ∧ i.instr ≠ 0 := by
  rw [execEnable, Bool.and_eq_true, Bool.and_eq_true, Bool.not_eq_true', ← Bool.not_eq_true, sentinel_iff, and_assoc]

/-- `we_o`: a running block that fetches an ADD or a SUB (R90). -/
theorem writeEnable_iff (i : BlockIn) :
    writeEnable i = true ↔
      i.run = true ∧ fetchOk i.pc = true ∧ ((opcodeOf i.instr).toNat = 1 ∨ (opcodeOf i.instr).toNat = 2) := by
  have hne : (opcodeOf i.instr).toNat = 1 ∨ (opcodeOf i.instr).toNat = 2 → i.instr ≠ 0 :=
    fun h => ne_zero_of_opcodeOf (by omega)
  rw [writeEnable, Bool.and_eq_true, execEnable_iff, Bool.or_eq_true, decide_eq_true_iff, decide_eq_true_iff,
    handlerSelect_eq_iff _ (by decide), handlerSelect_eq_iff _ (by decide)]
  exact ⟨fun ⟨⟨hrun, hok, _⟩, hop⟩ => ⟨hrun, hok, hop⟩, fun ⟨hrun, hok, hop⟩ => ⟨⟨hrun, hok, hne hop⟩, hop⟩⟩

/-- `halt_o`: a running block that does not write (R90). -/
theorem haltOut_iff (i : BlockIn) : haltOut i = true ↔ i.run = true ∧ ¬ writeEnable i = true := by
  rw [haltOut, Bool.and_eq_true, Bool.not_eq_true', Bool.not_eq_true]

/-- The operand multiplexers' outputs are the operand values of the word at `instr_i` (R90). -/
theorem operandA_blockInputs (s : State) :
    operandA (blockInputs s) = operandValue (operandsOf (blockInputs s).instr).op2 s := operand_mux _ s

theorem operandB_blockInputs (s : State) :
    operandB (blockInputs s) = operandValue (operandsOf (blockInputs s).instr).op3 s := operand_mux _ s

/-- `wdata_o` of an ADD. -/
theorem writeData_of_add {i : BlockIn} (h : (opcodeOf i.instr).toNat = 1) :
    writeData i = operandA i + operandB i := by
  rw [writeData, if_pos ((handlerSelect_eq_iff _ (by decide)).mpr h), add32_eq]

/-- `wdata_o` of a SUB. -/
theorem writeData_of_sub {i : BlockIn} (h : (opcodeOf i.instr).toNat = 2) :
    writeData i = operandA i - operandB i := by
  have hne : ¬ handlerSelect i.instr = 1 := by
    rw [handlerSelect_eq_iff _ (by decide), h]
    decide
  rw [writeData, if_neg hne, sub32_eq]

/-- `pc_next_o` of a block that halts is the program counter (R90). -/
theorem pcNext_of_halt {i : BlockIn} (h : haltOut i = true) : pcNext i = i.pc := if_pos h

/-- `pc_next_o` of a block that goes on follows a write to `x[15]` (R90, R100). -/
theorem pcNext_of_not_halt {i : BlockIn} (h : haltOut i = false) :
    pcNext i = (if (operandsOf i.instr).rd = 15 then writeData i else i.pc) + 1 := by
  rw [pcNext, h, add32_eq, add32_eq, apply_ite (· + 1)]
  rfl

theorem portStep_of_halted {s : State} (h : s.run = .halted) : portStep s = s := by
  have hrun : ¬ (blockInputs s).run = true := fun hr => by
    rw [show s.run = .running from of_decide_eq_true hr] at h
    cases h
  exact if_neg hrun

theorem portStep_of_running {s : State} (h : s.run = .running) :
    portStep s = blockUpdate (block (blockInputs s)) s := if_pos (decide_eq_true h)

/-- The state update of a halting block that does not write (R90). -/
theorem blockUpdate_of_halt {o : BlockOut} (hwe : o.we = false) (hh : o.halt = true) (s : State) :
    blockUpdate o s = (s.setReg 15 o.pcNext).raiseHalt o.cause := by
  simp only [blockUpdate, hwe, hh]
  rfl

/-- The state update of a block that writes (R90). -/
theorem blockUpdate_of_write {o : BlockOut} (hwe : o.we = true) (hh : o.halt = false) (s : State) :
    blockUpdate o s = (s.setReg o.waddr o.wdata).setReg 15 o.pcNext := by
  simp only [blockUpdate, hwe, hh]
  rfl

/-- Where the block does not write, the state update is the halt. -/
theorem portStep_of_halt {s : State} (hr : s.run = .running) (h : writeEnable (blockInputs s) = false) :
    portStep s = s.raiseHalt (causeOut (blockInputs s)) := by
  have hhalt : haltOut (blockInputs s) = true :=
    (haltOut_iff _).mpr ⟨decide_eq_true hr, Bool.not_eq_true _ ▸ h⟩
  have hpc : (block (blockInputs s)).pcNext = s.reg 15 := pcNext_of_halt hhalt
  rw [portStep_of_running hr, blockUpdate_of_halt h hhalt, hpc, State.setReg_reg]
  rfl

/-- Where the block writes, the state update is that of a retired instruction. -/
theorem portStep_of_write {s : State} (hr : s.run = .running) (h : writeEnable (blockInputs s) = true) :
    portStep s = s.retire (operandsOf (blockInputs s).instr).rd (writeData (blockInputs s)) := by
  have hhalt : haltOut (blockInputs s) = false := by
    rw [← Bool.not_eq_true, haltOut_iff]
    exact fun h' => h'.2 h
  have hpc : (block (blockInputs s)).pcNext =
      (s.retire (operandsOf (blockInputs s).instr).rd (writeData (blockInputs s))).pc := by
    rw [State.retire_pc]
    exact pcNext_of_not_halt hhalt
  rw [portStep_of_running hr, blockUpdate_of_write h hhalt, hpc]
  exact congrArg _ (State.advancePc_pc _)

/-- With no fetch the block does not write, and its cause is `PC_OUT_OF_RANGE` (R90). -/
theorem writeEnable_of_fetch_none {s : State} (h : s.fetch = none) : writeEnable (blockInputs s) = false := by
  rw [← Bool.not_eq_true, writeEnable_iff]
  rintro ⟨-, hok, -⟩
  exact absurd hok (Bool.eq_false_iff.mp (fetchOk_of_fetch_none h))

/-- With a fetched word, `we_o` is 1 on a running block exactly for an ADD or a SUB (R90). -/
theorem writeEnable_iff_of_fetch {s : State} {w : Word} (h : s.fetch = some w) :
    writeEnable (blockInputs s) = true ↔
      s.run = .running ∧ ((opcodeOf w).toNat = 1 ∨ (opcodeOf w).toNat = 2) := by
  rw [writeEnable_iff, blockInputs_instr_of_fetch h]
  exact and_congr decide_eq_true_iff (and_iff_right (fetchOk_of_fetch h))

/-- `cause_o` of any inputs: out of range first, then the cause of the word (R90). -/
theorem causeOut_eq (i : BlockIn) :
    causeOut i = if 2048 ≤ i.pc.toNat then .pcOutOfRange else haltCauseOf i.instr := by
  have hok : (!fetchOk i.pc) = true ↔ 2048 ≤ i.pc.toNat := by
    rw [fetchOk, Bool.not_eq_true', decide_eq_false_iff_not, not_lt]
  simp only [causeOut, haltCauseOf, hok, sentinel_iff, handlerSelect_eq_iff _ (n := 0) (by decide)]
  rfl

theorem causeOut_of_fetch_none {s : State} (h : s.fetch = none) : causeOut (blockInputs s) = .pcOutOfRange := by
  rw [causeOut_eq]
  exact if_pos (fetch_eq_none_iff.mp h)

theorem causeOut_of_fetch {s : State} {w : Word} (h : s.fetch = some w) :
    causeOut (blockInputs s) = haltCauseOf w := by
  rw [causeOut_eq, blockInputs_instr_of_fetch h]
  exact if_neg (Nat.not_le.mpr (pc_lt_of_fetch h))

/-- Settles O27: with no fetch or a word that does not retire the block does not write and its cause is the step's; for an ADD
or a SUB it writes what the step writes. -/
theorem portEquationsRealiseTheStep : Obligations.PortEquationsRealiseTheStep := by
  intro s
  cases hr : s.run with
  | halted => rw [step_of_halted hr, portStep_of_halted hr]
  | running =>
    cases hf : s.fetch with
    | none =>
      rw [step_of_fetch_none hr hf, portStep_of_halt hr (writeEnable_of_fetch_none hf), causeOut_of_fetch_none hf]
    | some w =>
      rw [step_of_fetch_some hr hf]
      by_cases hop : (opcodeOf w).toNat = 1 ∨ (opcodeOf w).toNat = 2
      · rw [portStep_of_write hr ((writeEnable_iff_of_fetch hf).mpr ⟨hr, hop⟩)]
        rcases hop with hop | hop
        · rw [exec_decode_add hop, writeData_of_add (by rwa [blockInputs_instr_of_fetch hf]), operandA_blockInputs,
            operandB_blockInputs, blockInputs_instr_of_fetch hf]
        · rw [exec_decode_sub hop, writeData_of_sub (by rwa [blockInputs_instr_of_fetch hf]), operandA_blockInputs,
            operandB_blockInputs, blockInputs_instr_of_fetch hf]
      · have hwe : writeEnable (blockInputs s) = false := by
          rw [← Bool.not_eq_true, writeEnable_iff_of_fetch hf]
          exact fun h => hop h.2
        rw [portStep_of_halt hr hwe, causeOut_of_fetch hf]
        exact exec_decode_halts (fun h => hop (.inl h)) (fun h => hop (.inr h)) s

/-- Settles O49: `cause_o` and a halting step both give the cause of the first check that holds. -/
theorem haltCauseCodesAreThoseOfTheTable : Obligations.HaltCauseCodesAreThoseOfTheTable := by
  refine ⟨⟨rfl, rfl, rfl, rfl, rfl⟩, fun c => ?codes, fun i => ?port,
    fun s t hr hs ht => ⟨fun hpc => ?outOfRange, ?word⟩⟩
  case codes => cases c <;> decide
  case port =>
    show (causeOut i).code.toNat = _
    rw [causeOut_eq, ← haltCauseOf_code]
    split <;> rfl
  case outOfRange =>
    rw [step_of_fetch_none hr (State.fetch_of_ge hpc)] at hs
    cases hs
    rfl
  case word =>
    intro w hf
    rw [step_of_fetch_some hr hf] at hs
    by_cases hop : (opcodeOf w).toNat = 1 ∨ (opcodeOf w).toNat = 2
    · obtain ⟨v, he⟩ := exec_decode_retires hop s
      rw [he] at hs
      cases hs
      rw [State.retire_run, hr] at ht
      cases ht
    · rw [exec_decode_halts (fun h => hop (.inl h)) (fun h => hop (.inr h))] at hs
      cases hs
      exact haltCauseOf_code w

/-- `exec_o` of a state that fetches (R90). -/
theorem execEnable_iff_of_fetch {s : State} {w : Word} (h : s.fetch = some w) :
    execEnable (blockInputs s) = true ↔ s.run = .running ∧ w ≠ 0 := by
  rw [execEnable_iff, blockInputs_instr_of_fetch h]
  exact and_congr decide_eq_true_iff (and_iff_right (fetchOk_of_fetch h))

/-- `halt_o` of a state that fetches (R90). -/
theorem haltOut_iff_of_fetch {s : State} {w : Word} (h : s.fetch = some w) :
    haltOut (blockInputs s) = true ↔ s.run = .running ∧ (opcodeOf w).toNat ≠ 1 ∧ (opcodeOf w).toNat ≠ 2 := by
  rw [haltOut_iff, writeEnable_iff_of_fetch h, ← not_or]
  have hrun : (blockInputs s).run = true ↔ s.run = .running := decide_eq_true_iff
  rw [hrun]
  exact and_congr_right fun hr => not_congr (and_iff_right hr)

theorem execEnable_of_fetch_none {s : State} (h : s.fetch = none) : execEnable (blockInputs s) = false := by
  rw [← Bool.not_eq_true, execEnable_iff]
  rintro ⟨-, hok, -⟩
  exact absurd hok (Bool.eq_false_iff.mp (fetchOk_of_fetch_none h))

theorem haltOut_iff_of_fetch_none {s : State} (h : s.fetch = none) :
    haltOut (blockInputs s) = true ↔ s.run = .running := by
  rw [haltOut_iff, writeEnable_of_fetch_none h]
  exact (and_iff_left Bool.false_ne_true).trans decide_eq_true_iff

/-- Settles O51: `instr_i` is the fetched word, and each port is its equation on that word. -/
theorem portsCarryTheFetchedWordsFieldsAndOperands : Obligations.PortsCarryTheFetchedWordsFieldsAndOperands := by
  intro s
  refine ⟨fun w hf => ?fetched, fun hf => ?outOfRange⟩
  case fetched =>
    have haddr : (imemAddr s.pc).val = s.pc.toNat := congrArg Fin.val (imemAddr_of_fetch hf)
    have hexec := execEnable_iff_of_fetch hf
    have hwe := writeEnable_iff_of_fetch hf
    have hhalt := haltOut_iff_of_fetch hf
    have hok := fetchOk_of_fetch hf
    obtain rfl : (blockInputs s).instr = w := blockInputs_instr_of_fetch hf
    exact ⟨hok, haddr, sentinel_iff _, rfl, rfl, rfl, rfl, rfl, rfl, rfl, rfl, rfl, rfl, operandA_blockInputs s,
      operandB_blockInputs s, handlerSelect_toNat _, hexec, hwe, hhalt⟩
  case outOfRange =>
    exact ⟨fetchOk_of_fetch_none hf, execEnable_of_fetch_none hf, writeEnable_of_fetch_none hf,
      haltOut_iff_of_fetch_none hf⟩

/-! ## A placed word -/

/-- A word written where the program counter points is the word fetched. -/
theorem State.fetch_memWrite_pc {s : State} (hwf : s.mem.wf = true) (h : s.pc.toNat < 2048) (w : Word) :
    (s.memWrite ⟨s.pc.toNat, h⟩ w).fetch = some w := by
  rw [State.fetch_of_lt (s := s.memWrite _ w) h]
  exact congrArg some ((State.memRead_memWrite hwf _ _ w).trans (if_pos rfl))

/-- The state that `placeWord` writes into: running, with the registers and the memory as they were. -/
def State.awake (s : State) : State :=
  match s.run with
  | .running => s
  | .halted => { s with run := .running, cause := .none }

theorem State.awake_of_running {s : State} (h : s.run = .running) : s.awake = s := by simp only [State.awake, h]

theorem State.awake_run (s : State) : s.awake.run = .running := by
  cases h : s.run <;> simp only [State.awake, h]

theorem State.awake_mem (s : State) : s.awake.mem = s.mem := by
  cases h : s.run <;> simp only [State.awake, h]

theorem State.placeWord_eq (s : State) (w : Word) :
    s.placeWord w = match fetchAddr s.awake.pc with
      | some a => s.awake.memWrite a w
      | none => (s.awake.setPc 0).memWrite 0 w := rfl

theorem State.placeWord_of_lt {s : State} (h : s.awake.pc.toNat < 2048) (w : Word) :
    s.placeWord w = s.awake.memWrite ⟨s.awake.pc.toNat, h⟩ w := by
  rw [State.placeWord_eq, fetchAddr_of_lt h]

theorem State.placeWord_of_ge {s : State} (h : 2048 ≤ s.awake.pc.toNat) (w : Word) :
    s.placeWord w = (s.awake.setPc 0).memWrite 0 w := by
  rw [State.placeWord_eq, fetchAddr_of_ge h]

theorem State.placeWord_run (s : State) (w : Word) : (s.placeWord w).run = .running := by
  by_cases h : s.awake.pc.toNat < 2048
  · rw [State.placeWord_of_lt h]
    exact s.awake_run
  · rw [State.placeWord_of_ge (by omega)]
    exact s.awake_run

theorem State.fetch_placeWord {s : State} (hwf : s.mem.wf = true) (w : Word) : (s.placeWord w).fetch = some w := by
  rw [← s.awake_mem] at hwf
  by_cases h : s.awake.pc.toNat < 2048
  · rw [State.placeWord_of_lt h]
    exact State.fetch_memWrite_pc hwf h w
  · have hpc : (s.awake.setPc 0).pc.toNat = 0 := by rw [State.setPc_pc]; rfl
    have haddr : (0 : Addr) = ⟨(s.awake.setPc 0).pc.toNat, by omega⟩ := Fin.ext hpc.symm
    rw [State.placeWord_of_ge (by omega), haddr]
    exact State.fetch_memWrite_pc (s := s.awake.setPc 0) hwf _ w

/-- A whole word's bits are the word that is placed. -/
theorem withFetchWord_toNat (s : State) (w : Word) : s.withFetchWord 32 w.toNat = s.placeWord w := by
  rw [State.withFetchWord, Nat.mod_eq_of_lt w.isLt, BitVec.ofNat_toNat, BitVec.setWidth_eq]

/-- Settles O25: the placed word is fetched by a running block, and a block that would fetch needs nothing but the write. -/
theorem placedWordIsExecutedNext : Obligations.PlacedWordIsExecutedNext := by
  intro s w hwf
  rw [withFetchWord_toNat]
  refine ⟨step_of_fetch_some (State.placeWord_run s w) (State.fetch_placeWord hwf w), fun h hr => ?_⟩
  have hawake : s.awake = s := State.awake_of_running hr
  rw [State.placeWord_of_lt (by rwa [hawake])]
  simp only [hawake]

end Sys2Proof.Machine
end

section
/-! PROOFS of 30_encoding.md sections 3 and 6, 41_arithmetic.md and 42_control.md: operand values, the handlers' contract,
and the idioms of ADD and SUB. -/

namespace Sys2Proof.Machine

/-! ## Operand values -/

theorem operandValue_immediate {b : Byte} (h : b.toNat < 128) (s : State) : operandValue b s = zext32 b := by
  rw [operandValue, resolve_immediate h]

theorem operandValue_register {b : Byte} (i : RegIdx) (h : b.toNat = 128 + i.val) (s : State) :
    operandValue b s = s.reg i := by
  rw [operandValue, resolve_register i h]

theorem operandValue_overflow {b : Byte} (h : 144 ≤ b.toNat) (s : State) : operandValue b s = s.reg 0 := by
  rw [operandValue, resolve_overflow h]

theorem operandValue_immediate_toNat {b : Byte} (h : b.toNat < 128) (s : State) :
    (operandValue b s).toNat = b.toNat := by
  rw [operandValue_immediate h, zext32_byte_toNat]

theorem operandValue_zero (s : State) : operandValue 0 s = 0 := operandValue_immediate (by decide) s

/-- Settles O14: a register byte resolves to its register, and one out of range to register 0. -/
theorem registerOperandsReadTheirRegister : Obligations.RegisterOperandsReadTheirRegister := fun _ s =>
  ⟨fun i h => ⟨resolve_register i h, operandValue_register i h s⟩,
    fun h => ⟨resolve_overflow h, operandValue_overflow h s⟩⟩

/-! ## Widths -/

/-- Settles O19: the functions are the library's sum and difference, which are the signed ones too. -/
theorem signedAndUnsignedDifferencesAgree : Obligations.SignedAndUnsignedDifferencesAgree := by
  intro a b
  refine ⟨?signed, ?unsigned, by rw [add32_eq, BitVec.toNat_add]⟩
  case signed =>
    rw [sub32_eq, Int.sub_eq_add_neg, BitVec.ofInt_add, BitVec.ofInt_neg, BitVec.ofInt_toInt, BitVec.ofInt_toInt,
      BitVec.sub_eq_add_neg]
  case unsigned => rw [sub32_eq, toNat_sub_minuend_first]

/-- Settles O52: the widening fits in 32 bits, and the library's sign extension keeps value and bits. -/
theorem wideningKeepsTheValue : Obligations.WideningKeepsTheValue := by
  intro n v hpos hn
  refine ⟨?unsigned, BitVec.toInt_signExtend_of_le hn, fun k hk => ?bits⟩
  case unsigned =>
    rw [zext32, BitVec.toNat_ofNat, Nat.mod_eq_of_lt]
    exact v.isLt.trans_le (Nat.pow_le_pow_right (by decide) hn)
  case bits =>
    rw [sext32, BitVec.getLsbD_signExtend, decide_eq_true hk, Bool.true_and, BitVec.msb_eq_getLsbD_last]

/-! ## Handlers -/

/-- Settles O15: the multiplexer is a direct index into the three handlers, with a fallback. -/
theorem opcodeIndexesThreeHandlers : Obligations.OpcodeIndexesThreeHandlers := by
  intro op
  refine ⟨fun h => ?_, fun h => ?_, fun h => ?_, select_of_three_le⟩ <;> simp only [select, h]

theorem callHandler_reg_of_ne (h : Handler) (s : State) {f : Operands} {i : RegIdx} (hi : i ≠ f.rd) :
    (callHandler h f s).state.reg i = s.reg i := by
  cases h with
  | nop => rfl
  | add => exact State.reg_setReg_of_ne s _ hi
  | sub => exact State.reg_setReg_of_ne s _ hi
  | fallback => rfl

theorem callHandler_mem (h : Handler) (f : Operands) (s : State) : (callHandler h f s).state.mem = s.mem := by
  cases h <;> rfl

theorem callHandler_run (h : Handler) (f : Operands) (s : State) : (callHandler h f s).state.run = s.run := by
  cases h <;> rfl

theorem callHandler_cause (h : Handler) (f : Operands) (s : State) : (callHandler h f s).state.cause = s.cause := by
  cases h <;> rfl

/-- ADD and SUB continue, the other two stop (R98). -/
theorem callHandler_continues_iff (h : Handler) (f : Operands) (s : State) :
    (callHandler h f s).continues = true ↔ h = .add ∨ h = .sub := by
  cases h <;> simp [callHandler, handleNop, handleAdd, handleSub, handleFallback]

/-- The end of a step halts exactly on `stop` (R100, R101). -/
theorem finishStep_run (h : Handler) (r : HandlerResult) :
    (finishStep h r).run = if r.continues then r.state.run else .halted := by
  rw [finishStep, apply_ite State.run]
  rfl

/-- A handler reads no more of the state than its registers (R98). -/
theorem callHandler_congr (h : Handler) (f : Operands) {s t : State} (hregs : t.regs = s.regs) :
    (callHandler h f t).state.regs = (callHandler h f s).state.regs ∧
      (callHandler h f t).continues = (callHandler h f s).continues := by
  have hvalue : ∀ b, operandValue b t = operandValue b s := operandValue_congr hregs
  cases h with
  | nop => exact ⟨hregs, rfl⟩
  | add => simp [callHandler, handleAdd, State.setReg, hvalue, hregs]
  | sub => simp [callHandler, handleSub, State.setReg, hvalue, hregs]
  | fallback => exact ⟨hregs, rfl⟩

/-- Settles O16, from the fields of a handler's result one by one. -/
theorem handlersWriteAtMostTheirDestination : Obligations.HandlersWriteAtMostTheirDestination := by
  intro h f s r
  have hmem : r.state.mem = s.mem := callHandler_mem h f s
  have hrun : r.state.run = s.run := callHandler_run h f s
  refine ⟨fun i => callHandler_reg_of_ne h s, fun a => ?read, hmem, hrun, callHandler_cause h f s,
    callHandler_continues_iff h f s, fun hstop => ?stop, fun hgo => ?go, fun t => callHandler_congr h f⟩
  case read => rw [State.memRead, hmem, State.memRead]
  case stop => rw [finishStep_run, hstop]; rfl
  case go => rw [finishStep_run, hgo, ← hrun]; rfl

/-! ## The idioms of ADD and SUB -/

/-- Settles O21: register 15 is read as the instruction's own index, and the advance follows a write to it. -/
theorem writingRegister15TransfersControl : Obligations.WritingRegister15TransfersControl := by
  intro u s k hk
  have hvalue : (operandValue k s).toNat = k.toNat := operandValue_immediate_toNat hk s
  refine ⟨⟨_, execAdd_eq _ s, ?forward⟩, ⟨_, execSub_eq _ s, ?backward⟩, ⟨_, execAdd_eq _ s, ?absolute⟩,
    ⟨_, execSub_eq _ s, ?toZero⟩, fun d hd => ⟨_, execAdd_eq _ s, ?copy⟩⟩
  case forward => rw [s.retire_pc_toNat_of_eq _ rfl, operandValue_pc, BitVec.toNat_add, hvalue, Nat.mod_add_mod]
  case backward => rw [s.retire_pc_toNat_of_eq _ rfl, operandValue_pc, toNat_sub_minuend_first, hvalue, Nat.mod_add_mod]
  case absolute =>
    rw [s.retire_pc_toNat_of_eq _ rfl, operandValue_zero, zero_add, hvalue, Nat.mod_eq_of_lt (by omega)]
  case toZero =>
    rw [s.retire_pc, if_pos rfl, operandValue_zero, operandValue_one]
    decide
  case copy => rw [s.retire_reg_dest _ hd, operandValue_pc, operandValue_zero, add_zero]

/-- Settles O22: adding the immediate 0 and subtracting a value from itself. -/
theorem setMoveAndClearIdioms : Obligations.SetMoveAndClearIdioms := by
  intro u s d b k hd hk
  refine ⟨⟨_, execAdd_eq _ s, ?set⟩, ⟨_, execAdd_eq _ s, ?move⟩, ⟨_, execSub_eq _ s, ?clear⟩⟩
  case set => rw [s.retire_reg_dest _ hd, operandValue_zero, zero_add, operandValue_immediate_toNat hk]
  case move => rw [s.retire_reg_dest _ hd, operandValue_zero, add_zero]
  case clear => rw [s.retire_reg_dest _ hd, sub_self]

/-- A write to `x[15]` goes through whatever its target is, and the next step checks the target (R93, R122). -/
theorem retire_pc_out_of_range {s : State} (hr : s.run = .running) {rd : RegIdx} (hrd : rd = 15) {v : Word}
    (h : 2048 ≤ (v + 1).toNat) :
    (s.retire rd v).run = .running ∧ (s.retire rd v).pc = v + 1 ∧
      step (s.retire rd v) = .next ((s.retire rd v).raiseHalt .pcOutOfRange) := by
  have hpc : (s.retire rd v).pc = v + 1 := by rw [s.retire_pc, if_pos hrd]
  exact ⟨hr, hpc, step_of_fetch_none hr (State.fetch_of_ge (by rwa [hpc]))⟩

/-- Settles O23: ADD and SUB retire alike. -/
theorem outOfRangeTargetHaltsAtNextStep : Obligations.OutOfRangeTargetHaltsAtNextStep := fun _ f s hr hrd =>
  ⟨fun h => ⟨_, execAdd_eq f s, retire_pc_out_of_range hr hrd h⟩,
    fun h => ⟨_, execSub_eq f s, retire_pc_out_of_range hr hrd h⟩⟩

end Sys2Proof.Machine
end

section
/-! PROOFS of 10_state.md section 7, 20_memory.md and 70_reset_and_hazards.md section 1: reset, memory, the loader and image
files. -/

namespace Sys2Proof.Machine

/-! ## Reset and memory -/

theorem reset_reg (i : RegIdx) : State.reset.reg i = 0 := Vector.getElem_replicate i.isLt

theorem reset_memRead (a : Addr) : State.reset.memRead a = 0 := Memory.read_nil a

/-- Settles O1: the registers are a constant vector, and the memory is the empty list. -/
theorem resetClearsRegistersAndMemoryAndRuns : Obligations.ResetClearsRegistersAndMemoryAndRuns :=
  ⟨reset_reg, reset_reg _, reset_memRead, rfl, rfl⟩

/-- Settles O3: a write in canonical form reads back, and canonical memories are told apart by their words. -/
theorem memoryReadsBackWritesAndIsCanonical : Obligations.MemoryReadsBackWritesAndIsCanonical :=
  ⟨fun _ a b v h => ⟨State.memRead_memWrite h a b v, Memory.wf_write v h a.isLt, rfl, rfl, rfl⟩,
    fun _ _ hs ht hread => Memory.ext_of_wfFrom hs ht fun a ha => hread ⟨a, ha⟩⟩

/-! ## The loader -/

theorem loadImage_of_length_le {image : List Word} (h : image.length ≤ 2048) (s : State) :
    loadImage image s = .next { s with mem := storeFrom Config.loadBase image s.mem } :=
  if_neg (Nat.not_lt.mpr h)

theorem loadImage_of_length_gt {image : List Word} (h : 2048 < image.length) (s : State) :
    loadImage image s = .refused .imageTooLong := if_pos h

/-- Settles O5: the loader's test is the image's length. -/
theorem loaderRefusesImageLongerThanMemory : Obligations.LoaderRefusesImageLongerThanMemory := fun _ s =>
  ⟨fun h => loadImage_of_length_gt h s, fun h => ⟨_, loadImage_of_length_le h s⟩⟩

/-- The state a boot leaves (R150, R151): reset, with the image in memory. -/
def State.booted (image : List Word) : State := State.reset.withMem (storeFrom Config.loadBase image [])

theorem boot_of_length_le {image : List Word} (h : image.length ≤ 2048) : boot image = .next (State.booted image) :=
  loadImage_of_length_le h State.reset

/-- A boot that answers a state was of an image that fits. -/
theorem boot_eq_next_iff {image : List Word} {b : State} :
    boot image = .next b ↔ image.length ≤ 2048 ∧ b = State.booted image := by
  constructor
  · intro h
    have hlen : image.length ≤ 2048 := by
      by_contra hlong
      rw [boot, loadImage_of_length_gt (by omega)] at h
      cases h
    rw [boot_of_length_le hlen] at h
    cases h
    exact ⟨hlen, rfl⟩
  · rintro ⟨h, rfl⟩
    exact boot_of_length_le h

/-- After a boot, a word of memory is the image's word or 0. -/
theorem booted_memRead {image : List Word} (h : image.length ≤ 2048) (a : Addr) :
    (State.booted image).memRead a = (image[a.val]?).getD 0 := by
  obtain ⟨-, hread⟩ := storeFrom_spec image 0 (m := []) rfl (by omega)
  exact (hread a.val).trans (if_pos (Nat.zero_le _))

theorem booted_inv {image : List Word} (h : image.length ≤ 2048) : (State.booted image).Inv := by
  obtain ⟨hwf, -⟩ := storeFrom_spec image 0 (m := []) rfl (by omega)
  exact ⟨hwf, iff_of_true rfl rfl⟩

/-- The program counter after a boot is 0, so the first fetch is of `M[0]`. -/
theorem booted_fetch (image : List Word) : (State.booted image).fetch = some ((State.booted image).memRead 0) :=
  State.fetch_of_lt (s := State.booted image) (show State.reset.pc.toNat < 2048 by decide)

/-- Settles O4, from what the loader leaves in a memory of zeros. -/
theorem loaderWritesImageOverZeroMemory : Obligations.LoaderWritesImageOverZeroMemory :=
  ⟨reset_memRead, fun image h => ⟨State.booted image, boot_of_length_le h, booted_memRead h, rfl, rfl, rfl,
    booted_fetch image, booted_inv h⟩⟩

/-! ## Image files -/

/-- The number of two vectors joined: the upper one weighs two to the width of the lower. -/
theorem toNat_append_eq_add {n m : Nat} (a : BitVec n) (b : BitVec m) :
    (a ++ b).toNat = 2 ^ m * a.toNat + b.toNat := by
  rw [BitVec.toNat_append, ← Nat.shiftLeft_add_eq_or_of_lt b.isLt, Nat.shiftLeft_eq, Nat.mul_comm]

/-- One to three bytes are no whole word (log 13). -/
theorem imageOfBytes_of_cut_word (o : Config.ByteOrder) {bytes : List Byte} (hpos : 0 < bytes.length)
    (hlt : bytes.length < 4) : imageOfBytes o bytes = none := by
  match bytes with
  | [] => cases hpos
  | [_] => rfl
  | [_, _] => rfl
  | [_, _, _] => rfl
  | _ :: _ :: _ :: _ :: _ => simp only [List.length_cons] at hlt; omega

theorem loadImageFile_of_some {p : Config.Params} {bytes : List Byte} {image : List Word}
    (h : imageOfBytes p.imageByteOrder bytes = some image) (s : State) : loadImageFile p bytes s = loadImage image s := by
  rw [loadImageFile, h]

theorem loadImageFile_of_none {p : Config.Params} {bytes : List Byte}
    (h : imageOfBytes p.imageByteOrder bytes = none) (s : State) :
    loadImageFile p bytes s = .refused .imageNotWholeWords := by
  rw [loadImageFile, h]

/-- A file written from an image holds its words and no more. -/
theorem imageOfBytes_flatMap (o : Config.ByteOrder) (image : List Word) :
    imageOfBytes o (image.flatMap (bytesOfWord o)) = some image := by
  have h := imageOfBytes_append o image []
  rwa [List.append_nil, imageOfBytes, Option.map_some, List.append_nil] at h

/-- Settles O6: the bytes' weights, and the file of an image with nothing and with a cut word behind it. -/
theorem imageFileLoadsItsWords : Obligations.ImageFileLoadsItsWords := by
  refine ⟨fun b0 b1 b2 b3 => ⟨?little, ?big⟩, fun p image s => ⟨?whole, fun extra hpos hlt => ?cut⟩⟩
  case little =>
    simp only [wordOfBytes, toNat_append_eq_add]
    omega
  case big =>
    simp only [wordOfBytes, toNat_append_eq_add]
    omega
  case whole => exact loadImageFile_of_some (imageOfBytes_flatMap _ image) s
  case cut =>
    apply loadImageFile_of_none
    rw [imageOfBytes_append, imageOfBytes_of_cut_word _ hpos hlt, Option.map_none]

end Sys2Proof.Machine
end

section
/-! PROOFS of 40_dispatch.md section 3 and 70_reset_and_hazards.md section 2: what a run keeps and counts, and how it ends. -/

namespace Sys2Proof.Machine

/-! ## What a run keeps -/

theorem runFor_mem (k : Nat) (s : State) : (runFor k s).state.mem = s.mem :=
  runFor_induction (P := fun t => t.mem = s.mem) (fun _ _ h hs => (step_mem hs).trans h) k rfl

theorem runFor_memRead (k : Nat) (s : State) (a : Addr) : (runFor k s).state.memRead a = s.memRead a := by
  rw [State.memRead, runFor_mem, State.memRead]

theorem State.Inv.runFor {s : State} (h : s.Inv) (k : Nat) : (runFor k s).state.Inv :=
  runFor_induction (fun _ _ => State.Inv.step) k h

/-- Settles O35: no step writes memory, so no run does. -/
theorem memoryIsConstantDuringARun : Obligations.MemoryIsConstantDuringARun :=
  fun k s => ⟨runFor_mem k s, runFor_memRead k s⟩

/-! ## Counts -/

theorem RunState.eq_halted_of_ne_running {r : RunState} (h : r ≠ .running) : r = .halted := by
  cases r with
  | running => exact absurd rfl h
  | halted => rfl

/-- A run takes no more steps than it may. -/
theorem runFor_steps_le (k : Nat) (s : State) : (runFor k s).steps ≤ k := by
  induction k generalizing s with
  | zero => exact Nat.le_refl 0
  | succ k ih =>
    cases hr : s.run with
    | halted => rw [runFor_of_halted hr]; exact Nat.zero_le _
    | running =>
      obtain ⟨t, ht, -⟩ := step_spec s
      rw [runFor_succ hr ht]
      exact Nat.succ_le_succ (ih t)

/-- Every step of a run retires but the last of a run that has ended (R103). -/
theorem runFor_counts (k : Nat) {s : State} (hr : s.run = .running) :
    ((runFor k s).state.run = .halted → (runFor k s).steps = (runFor k s).retired + 1) ∧
    ((runFor k s).state.run = .running → (runFor k s).steps = k ∧ (runFor k s).retired = k) := by
  induction k generalizing s with
  | zero =>
    rw [runFor_zero, hr]
    exact ⟨nofun, fun _ => ⟨rfl, rfl⟩⟩
  | succ k ih =>
    obtain ⟨t, ht, -⟩ := step_spec s
    rw [runFor_succ hr ht, RunRecord.afterStep_state, RunRecord.afterStep_steps, RunRecord.afterStep_retired]
    cases htr : t.run with
    | halted =>
      rw [runFor_of_halted htr, htr]
      exact ⟨fun _ => rfl, nofun⟩
    | running =>
      obtain ⟨hended, hgoing⟩ := ih htr
      rw [if_pos rfl]
      exact ⟨fun h => congrArg (· + 1) (hended h), fun h => (hgoing h).imp (congrArg (· + 1)) (congrArg (· + 1))⟩

/-- Settles O36, from the counts and the bound on the steps. -/
theorem endedRunHasOneStepMoreThanRetired : Obligations.EndedRunHasOneStepMoreThanRetired := by
  intro k s hr
  obtain ⟨hended, hgoing⟩ := runFor_counts k hr
  exact ⟨fun h => ⟨hended h, runFor_steps_le k s⟩, hgoing⟩

/-- A run in two parts: the second goes on where the first stopped (R102). -/
theorem runFor_add (j k : Nat) (s : State) :
    (runFor (j + k) s).state = (runFor k (runFor j s).state).state ∧
    (runFor (j + k) s).steps = (runFor j s).steps + (runFor k (runFor j s).state).steps ∧
    (runFor (j + k) s).retired = (runFor j s).retired + (runFor k (runFor j s).state).retired := by
  induction j generalizing s with
  | zero => simp only [Nat.zero_add, runFor_zero, and_self]
  | succ j ih =>
    cases hr : s.run with
    | halted => simp only [runFor_of_halted hr, Nat.add_zero, and_self]
    | running =>
      obtain ⟨t, ht, -⟩ := step_spec s
      obtain ⟨hstate, hsteps, hretired⟩ := ih t
      rw [Nat.succ_add j k, runFor_succ hr ht, runFor_succ hr ht]
      refine ⟨hstate, ?_, ?_⟩
      · rw [RunRecord.afterStep_steps, hsteps, RunRecord.afterStep_steps, RunRecord.afterStep_state]
        omega
      · rw [RunRecord.afterStep_retired, hretired, RunRecord.afterStep_retired, RunRecord.afterStep_state]
        split <;> omega

/-- Settles O37: a run in two parts, and a running state has no output. -/
theorem stepCapCutsButDoesNotEndARun : Obligations.StepCapCutsButDoesNotEndARun := by
  intro j k s
  obtain ⟨hstate, hsteps, hretired⟩ := runFor_add j k s
  exact ⟨hstate, hsteps, hretired, State.output_of_running⟩

/-! ## The end of a run -/

/-- Two amounts of fuel that both end a run end it alike (R26). -/
theorem runFor_eq_of_ended {k k' : Nat} {s : State} (h : (runFor k s).state.run = .halted)
    (h' : (runFor k' s).state.run = .halted) : runFor k' s = runFor k s := by
  rcases Nat.le_total k k' with hle | hle
  · rw [← Nat.add_sub_cancel' hle, runFor_add_of_ended h]
  · rw [← Nat.add_sub_cancel' hle, runFor_add_of_ended h']

/-- Before its last step a run is running: its end is the first halted state (R104). -/
theorem runFor_running_of_lt_steps {j k : Nat} {s : State} (h : j < (runFor k s).steps) :
    (runFor j s).state.run = .running := by
  by_contra hne
  have hended : (runFor j s).state.run = .halted := RunState.eq_halted_of_ne_running hne
  have hj : (runFor j s).steps ≤ j := runFor_steps_le j s
  have hk : (runFor k s).steps ≤ k := runFor_steps_le k s
  rw [← Nat.add_sub_cancel' (show j ≤ k by omega), runFor_add_of_ended hended] at h
  omega

theorem State.output_of_halted {s : State} (h : s.run = .halted) : s.output = some ⟨s.regs, s.cause⟩ := by
  simp only [State.output, h]

/-- A halted state with the invariant has a cause. -/
theorem State.Inv.cause_ne_none {s : State} (h : s.Inv) (hr : s.run = .halted) : s.cause ≠ .none := by
  intro hc
  rw [h.running_iff_no_cause.mpr hc] at hr
  cases hr

/-- Settles O38: fuel past the end changes nothing, and the invariant gives the end a cause. -/
theorem endOfARunIsUniqueAndOutputsRegistersAndCause : Obligations.EndOfARunIsUniqueAndOutputsRegistersAndCause := by
  rintro p q s r r' hinv ⟨k, -, rfl, hended⟩ ⟨k', -, rfl, hended'⟩
  exact ⟨runFor_eq_of_ended hended hended', State.output_of_halted hended, (hinv.runFor k).cause_ne_none hended,
    runFor_mem k s, fun j hj => runFor_running_of_lt_steps hj⟩

/-- Settles O39: of the five causes, the invariant leaves out `NONE` and safety the two errors. -/
theorem safeEndedRunEndedNormally : Obligations.SafeEndedRunEndedNormally := by
  rintro p s r hinv ⟨k, -, rfl, hended⟩ hsafe
  refine ⟨hended, ?_⟩
  rw [State.Safe] at hsafe
  have hne := (hinv.runFor k).cause_ne_none hended
  cases hc : (runFor k s).state.cause with
  | none => exact absurd hc hne
  | haltSentinel => exact .inl rfl
  | haltNop => exact .inr rfl
  | unknownOpcode => rw [hc] at hsafe; cases hsafe
  | pcOutOfRange => rw [hc] at hsafe; cases hsafe

/-- At the first index past the image a run of it reads the 0 that reset left there. -/
theorem runFor_booted_fetch_at_end {image : List Word} {k : Nat}
    (hpc : (runFor k (State.booted image)).state.pc.toNat = image.length) (h : image.length < 2048) :
    (runFor k (State.booted image)).state.fetch = some 0 := by
  rw [State.fetch_of_lt (by omega), runFor_memRead, booted_memRead (by omega), List.getElem?_eq_none hpc.ge]
  rfl

/-- Settles O41: past the image there is the sentinel, or, past a full memory, no word. -/
theorem runningPastTheImageHalts : Obligations.RunningPastTheImageHalts := by
  intro image b k hb hr hpc
  obtain ⟨hlen, rfl⟩ := boot_eq_next_iff.mp hb
  by_cases h : image.length < 2048
  · rw [if_pos h, step_of_fetch_some hr (runFor_booted_fetch_at_end hpc h)]
    exact execHaltSentinel_eq _
  · rw [if_neg h]
    exact step_of_fetch_none hr (State.fetch_of_ge (by omega))

end Sys2Proof.Machine
end

section
/-! PROOFS of 30_encoding.md section 6: the reference encoder's lines, tokens, digits and operand fields. -/

namespace Sys2Proof.Machine

/-! ## Lines and digits -/

theorem isWhitespace_iff (c : Char) :
    isWhitespace c = true ↔ c.toNat = 32 ∨ c.toNat = 9 ∨ c.toNat = 13 ∨ c.toNat = 10 := by
  simp only [isWhitespace, Bool.or_eq_true, decide_eq_true_eq, or_assoc, ← Char.toNat_inj]
  rfl

/-- The encoder reads the first four tokens and no more (D20). -/
theorem assembleTokens_take (marker : Char) (ts : List Token) :
    assembleTokens marker (ts.take 4) = assembleTokens marker ts := by
  simp [assembleTokens]

/-- Settles O47, from the splitting law of `tokensFrom` with nothing read before. -/
theorem linesSplitIntoTokensAtWhitespace : Obligations.LinesSplitIntoTokensAtWhitespace := by
  refine ⟨isWhitespace_iff, rfl, fun line hne h => ?run,
    fun before after c h => tokensFrom_append_whitespace [] before after h,
    fun line t ht => mem_tokensFrom (fun c hc => absurd hc List.not_mem_nil) ht,
    fun p line => (assembleTokens_take p.regMarker _).symm, fun p lines i => List.getElem?_map ..⟩
  case run =>
    rw [tokens, tokensFrom_of_no_whitespace [] h, List.nil_append, consToken, if_neg]
    simpa using hne

/-- Settles O48: a number is spelled by a non-empty string of digits, and one more digit is ten times it and the digit. -/
theorem digitTokensSpellTheirDecimalNumber : Obligations.DigitTokensSpellTheirDecimalNumber := by
  refine ⟨fun t => ?digits, fun c hlo hhi => ?one, fun t c v h hlo hhi =>
    parseUnsigned_append_digit h ((isDigit_iff c).mpr ⟨hlo, hhi⟩)⟩
  case digits => simp only [parseUnsigned_ne_none_iff, isDigit_iff]
  case one => simp [parseUnsigned, (isDigit_iff c).mpr ⟨hlo, hhi⟩]

/-! ## Operand fields -/

/-- A field of a value without the register flag (R82, R83). -/
theorem fields_of_resolve_literal {marker : Char} {t : Token} {v : Nat} (h : resolveImmediate marker t = (v, false))
    (hv : v < 256) :
    operandField marker (some t) = v ∧ destinationField marker (some t) = v % 16 := by
  simp only [operandField, destinationField, h, Bool.false_eq_true, if_false, Nat.or_zero]
  exact ⟨(Nat.and_two_pow_sub_one_eq_mod v 8).trans (Nat.mod_eq_of_lt hv), Nat.and_two_pow_sub_one_eq_mod v 4⟩

/-- A field of a register index, with the flag in bit 7 (R82, R83). -/
theorem fields_of_resolve_register {marker : Char} {t : Token} {i : Nat} (h : resolveImmediate marker t = (i, true))
    (hi : i < 16) :
    operandField marker (some t) = 128 + i ∧ destinationField marker (some t) = i := by
  have hbyte : i &&& 0xFF = i := (Nat.and_two_pow_sub_one_eq_mod i 8).trans (Nat.mod_eq_of_lt (by omega))
  have hflag : i ||| 0x80 = 128 + i := by
    rw [Nat.or_comm]
    exact (Nat.two_pow_add_eq_or_of_lt (i := 7) (by omega) 1).symm
  simp only [operandField, destinationField, h, if_true, hbyte, hflag, true_and]
  exact (Nat.and_two_pow_sub_one_eq_mod i 4).trans (Nat.mod_eq_of_lt hi)

theorem resolveImmediate_of_not_literal {marker : Char} {t : Token} (h : parseUnsigned t = none) :
    resolveImmediate marker t = resolveRegister marker t := by
  simp only [resolveImmediate, h]

/-- A register token: the marker and a number (R80). -/
theorem resolveRegister_marker (marker : Char) {digits : Token} {i : Nat} (h : parseUnsigned digits = some i) :
    resolveRegister marker (marker :: digits) = if i < 16 then (i, true) else (0, false) := by
  simp only [resolveRegister, if_true, h]

/-- A token that is no marker with a number (R81). -/
theorem resolveRegister_other {marker : Char} {t : Token}
    (h : ∀ digits, t = marker :: digits → parseUnsigned digits = none) : resolveRegister marker t = (0, false) := by
  cases t with
  | nil => rfl
  | cons c digits =>
    by_cases hc : c = marker
    · subst hc
      simp only [resolveRegister, if_true, h digits rfl]
    · exact if_neg hc

/-- Settles O43: the four rules of R78 to R81, and the fields of what each resolves to. -/
theorem operandTokensGiveTheirFields : Obligations.OperandTokensGiveTheirFields := by
  intro marker t
  have hzero : resolveImmediate marker t = (0, false) →
      operandField marker (some t) = 0 ∧ destinationField marker (some t) = 0 :=
    fun h => fields_of_resolve_literal h (by decide)
  refine ⟨fun v h hv => ?literal, fun v h hv => hzero ?bigLiteral, fun digits i hn ht h hi => ?register,
    fun digits i hn ht h hi => hzero ?bigRegister, fun hn h => hzero ?other⟩
  case literal => exact fields_of_resolve_literal ((resolveImmediate_literal marker h).trans (if_pos hv)) hv
  case bigLiteral => exact (resolveImmediate_literal marker h).trans (if_neg (by omega))
  case register =>
    refine fields_of_resolve_register ?_ hi
    rw [resolveImmediate_of_not_literal hn, ht, resolveRegister_marker marker h, if_pos hi]
  case bigRegister => rw [resolveImmediate_of_not_literal hn, ht, resolveRegister_marker marker h, if_neg (by omega)]
  case other => rw [resolveImmediate_of_not_literal hn, resolveRegister_other h]

/-- Settles O46: the field is the literal, and a byte from 128 on is a register reference. -/
theorem literalAbove127ExecutesAsARegister : Obligations.LiteralAbove127ExecutesAsARegister := by
  intro marker t v s h hlo hhi
  obtain ⟨hfield, -⟩ := fields_of_resolve_literal ((resolveImmediate_literal marker h).trans (if_pos hhi)) hhi
  have hbyte : (BitVec.ofNat 8 v).toNat = v := Nat.mod_eq_of_lt hhi
  refine ⟨hfield, ?_⟩
  rw [hfield]
  split
  case isTrue hv => exact operandValue_register ⟨v - 128, by omega⟩ (hbyte.trans (by simp only; omega)) s
  case isFalse hv => exact operandValue_overflow (by omega) s

/-! ## Assembled words -/

/-- A field stays below 144 unless the token spells a number that does not (R71). -/
theorem operandField_lt_144 {marker : Char} {t : Option Token}
    (h : ∀ u, t = some u → ∀ v, parseUnsigned u = some v → v < 128) : operandField marker t < 144 := by
  cases t with
  | none => exact Nat.zero_lt_succ _
  | some u =>
    rcases resolveImmediate_cases marker u with ⟨v, hv, hlt, hr⟩ | ⟨i, hi, hr⟩ | hr
    · have hsmall : v < 128 := h u rfl v hv
      rw [(fields_of_resolve_literal hr hlt).1]
      omega
    · rw [(fields_of_resolve_register hr hi).1]
      omega
    · rw [(fields_of_resolve_literal hr (by decide)).1]
      decide

/-- The layout of clear unread bits, an op-code below 3 and operand bytes below 144 is canonical (R71). -/
theorem canonical_layOut {op : BitVec 5} {f : Operands} (hop : op.toNat ≤ 2) (h2 : f.op2.toNat < 144)
    (h3 : f.op3.toNat < 144) : canonical (layOut op ⟨0, 0⟩ f) = true := by
  rw [canonical_iff, opcodeOf_layOut, operandsOf_layOut]
  refine ⟨fun k hlo hhi => ?_, hop, h2, h3⟩
  rw [layOut_getLsbD]
  grind

/-- Settles O44: each token's field is below 144, and the word is laid out from the fields. -/
theorem smallLiteralLinesAssembleToCanonicalWords : Obligations.SmallLiteralLinesAssembleToCanonicalWords := by
  intro p line h
  have hfield : ∀ n, operandField p.regMarker (tokens line)[n]? < 144 := fun n =>
    operandField_lt_144 fun u hu => h u (List.mem_of_getElem? hu)
  rw [assemble, assembleTokens_eq_layOut_assembledOperands]
  refine canonical_layOut ?opcode ?op2 ?op3
  case opcode =>
    have hlt := mnemonicOpcode_lt (tokens line)[0]?
    rw [BitVec.toNat_ofNat]
    omega
  case op2 => exact (operandField_byte_toNat p.regMarker _).trans_lt (hfield 2)
  case op3 => exact (operandField_byte_toNat p.regMarker _).trans_lt (hfield 3)

/-- Settles O45: any other first token gives op-code 0, and a word with op-code 0 is the sentinel or a NOP. -/
theorem unrecognisedMnemonicAssemblesToAHalt : Obligations.UnrecognisedMnemonicAssemblesToAHalt := by
  intro p line s hadd hsub
  rw [List.head?_eq_getElem?] at hadd hsub
  have hop : (opcodeOf (assemble p line)).toNat = 0 :=
    (extract_opcode_assembleTokens p.regMarker (tokens line)).trans ((if_neg hadd).trans (if_neg hsub))
  exact ⟨hop, _, exec_decode_halts (by omega) (by omega) s, rfl, rfl, rfl⟩

end Sys2Proof.Machine
end
